-- ==== Sys2Proof/Word.lean ====
section
/-! DEFINITION. The widths of R4 (a byte is 8 bits; a register, the program counter and a memory
word are 32 bits; 32 general registers) and the signed readings of 00_scope.md section 5. -/

namespace Sys2Proof

/-- A byte (R4). -/
abbrev Byte := BitVec 8

/-- A 32-bit value: a register, the program counter, an address, a memory word (R4). -/
abbrev Word := BitVec 32

/-- The index of a general register, `0 .. 31` (R10). -/
abbrev RegIdx := Fin 32

/-- `signed(v)` of 00_scope.md section 5: the two's complement reading of a 32-bit value. -/
def signed (v : Word) : Int :=
  if v.toNat < 2 ^ 31 then v.toNat else (v.toNat : Int) - 2 ^ 32

/-- The two's complement reading of a 16-bit immediate (R66: `-32768 .. 32767`). -/
def signed16 (v : BitVec 16) : Int :=
  if v.toNat < 2 ^ 15 then v.toNat else (v.toNat : Int) - 2 ^ 16

end Sys2Proof
end

