-- ==== Sys2Proof/Syntax.lean ====
section
/-! DEFINITION. The 20 instructions (R70) as syntax, the decoded fields of a word (R62), the names of
the opcode table's rows, and the two ways bytes can fail to decode. -/

namespace Sys2Proof

/-- The fields the decoder takes from every word (R61, R62). Bits 10:6 are in no field but `imm16`. -/
structure DecodedInstruction where
  /-- `w[31:26]` -/
  op : BitVec 6
  /-- `w[5:0]`, all six bits -/
  funct : BitVec 6
  /-- `w[25:21]` -/
  rs : RegIdx
  /-- `w[20:16]` -/
  rt : RegIdx
  /-- `w[15:11]` -/
  rd : RegIdx
  /-- `w[15:0]` -/
  imm16 : BitVec 16
  /-- `sext_16(imm16)` -/
  imm : Word
  /-- `w[25:0]`, all 26 bits -/
  target : BitVec 26
deriving DecidableEq, Repr

/-- The instructions, one constructor for each row of the opcode table (R70), each with the operands
its rule uses (R20, R63 to R65). `imm` is the sign-extended immediate that the Decoded Instruction
holds (R62, R66); the other immediate forms are recovered from it (Machine/Operands.lean). The bits
an instruction ignores (R72) are no operand. -/
inductive Instr where
  | add (rd rs rt : RegIdx)
  | addu (rd rs rt : RegIdx)
  | sub (rd rs rt : RegIdx)
  | subu (rd rs rt : RegIdx)
  | j (target : BitVec 26)
  | jal (target : BitVec 26)
  | beq (rs rt : RegIdx) (imm : Word)
  | bne (rs rt : RegIdx) (imm : Word)
  | blez (rs : RegIdx) (imm : Word)
  | bgtz (rs : RegIdx) (imm : Word)
  | addi (rt rs : RegIdx) (imm : Word)
  | addiu (rt rs : RegIdx) (imm : Word)
  | slti (rt rs : RegIdx) (imm : Word)
  | sltiu (rt rs : RegIdx) (imm : Word)
  | andi (rt rs : RegIdx) (imm : Word)
  | ori (rt rs : RegIdx) (imm : Word)
  | xori (rt rs : RegIdx) (imm : Word)
  | lui (rt : RegIdx) (imm : Word)
  | lw (rt rs : RegIdx) (imm : Word)
  | sw (rt rs : RegIdx) (imm : Word)
deriving DecidableEq, Repr

/-- The mnemonics of the opcode table (R70). -/
inductive Mnemonic where
  | add | addu | sub | subu | j | jal | beq | bne | blez | bgtz
  | addi | addiu | slti | sltiu | andi | ori | xori | lui | lw | sw
deriving DecidableEq, Repr

/-- The mnemonic of an instruction. -/
def Instr.mnemonic : Instr → Mnemonic
  | .add _ _ _ => .add
  | .addu _ _ _ => .addu
  | .sub _ _ _ => .sub
  | .subu _ _ _ => .subu
  | .j _ => .j
  | .jal _ => .jal
  | .beq _ _ _ => .beq
  | .bne _ _ _ => .bne
  | .blez _ _ => .blez
  | .bgtz _ _ => .bgtz
  | .addi _ _ _ => .addi
  | .addiu _ _ _ => .addiu
  | .slti _ _ _ => .slti
  | .sltiu _ _ _ => .sltiu
  | .andi _ _ _ => .andi
  | .ori _ _ _ => .ori
  | .xori _ _ _ => .xori
  | .lui _ _ => .lui
  | .lw _ _ _ => .lw
  | .sw _ _ _ => .sw

/-- A row of the opcode table: a word `w` is this instruction if and only if
`w & mask = pattern` (R70, whose column `match` is `pattern` here). -/
structure OpcodeRow where
  mnemonic : Mnemonic
  mask : Word
  pattern : Word
deriving DecidableEq, Repr

/-- Why bytes are no instruction. -/
inductive DecodeReject where
  /-- The word matches none of the 20 rows; its `op` and `funct` fields (R76). -/
  | unimplemented (op funct : BitVec 6)
  /-- There are fewer than four bytes: every instruction is one 32-bit word (R60). -/
  | truncated (count : Nat)
deriving DecidableEq, Repr

end Sys2Proof
end

