-- ==== Sys2Proof/WellFormed.lean ====
section
/-! DEFINITION. Which terms of `Instr` are instructions of this hardware. Register indices and jump
targets are of exactly their field's range by type; the one thing left to check is that the 32-bit
immediate is the sign extension of a 16-bit field (R62, R66). -/

namespace Sys2Proof

/-- Bits 31:16 of a sign-extended immediate are copies of its bit 15 (00_scope.md section 5,
`sext_N`): bits 31:15 are all zero or all one. -/
def isSignExtended (imm : Word) : Bool :=
  imm.extractLsb' 15 17 == 0 || imm.extractLsb' 15 17 == BitVec.allOnes 17

/-- An instruction is well formed when its immediate, if it has one, is a sign-extended 16-bit
field (R66). Every word of the opcode table decodes to a well-formed instruction. -/
def Instr.wellFormed : Instr → Bool
  | .add _ _ _ => true
  | .addu _ _ _ => true
  | .sub _ _ _ => true
  | .subu _ _ _ => true
  | .j _ => true
  | .jal _ => true
  | .beq _ _ imm => isSignExtended imm
  | .bne _ _ imm => isSignExtended imm
  | .blez _ imm => isSignExtended imm
  | .bgtz _ imm => isSignExtended imm
  | .addi _ _ imm => isSignExtended imm
  | .addiu _ _ imm => isSignExtended imm
  | .slti _ _ imm => isSignExtended imm
  | .sltiu _ _ imm => isSignExtended imm
  | .andi _ _ imm => isSignExtended imm
  | .ori _ _ imm => isSignExtended imm
  | .xori _ _ imm => isSignExtended imm
  | .lui _ imm => isSignExtended imm
  | .lw _ _ imm => isSignExtended imm
  | .sw _ _ imm => isSignExtended imm

end Sys2Proof
end

