-- ==== Sys2Proof/Decode.lean ====
section
/-! DEFINITION. The decoder (R60 to R76), total on words and on bytes, and after it the encoder,
written from the formats and the opcode map (R63 to R65, R70, R82), with the opcode table itself as
data. -/

namespace Sys2Proof

/-! ### Fields -/

/-- `sext_16` (00_scope.md section 5). -/
def sext16 (v : BitVec 16) : Word := v.signExtend 32

/-- The 5-bit register field whose lowest bit is `lo` (R62, R69). -/
def regField (w : Word) (lo : Nat) : RegIdx := (w.extractLsb' lo 5).toFin

/-- `w[31:26]` (R62). -/
def opField (w : Word) : BitVec 6 := w.extractLsb' 26 6

/-- `w[5:0]`, the full six bits (R62; the mask `0x2F` of U9 is not this hardware's). -/
def functField (w : Word) : BitVec 6 := w.extractLsb' 0 6

/-- `w[15:0]` (R62). -/
def imm16Field (w : Word) : BitVec 16 := w.extractLsb' 0 16

/-- `w[25:0]`, the full 26 bits (R62; the mask `0x02FFFFFF` of U10 is not this hardware's). -/
def targetField (w : Word) : BitVec 26 := w.extractLsb' 0 26

/-- The decoder of R61 and R62: all the fields, from every word, whatever the opcode. -/
def splitFields (w : Word) : DecodedInstruction where
  op := opField w
  funct := functField w
  rs := regField w 21
  rt := regField w 16
  rd := regField w 11
  imm16 := imm16Field w
  imm := sext16 (imm16Field w)
  target := targetField w

/-! ### Selecting the instruction -/

/-- The function map of opcode 0 (R74): `funct` alone selects, whatever bits 25:6 hold (R71). -/
def selectRType (d : DecodedInstruction) : Option Instr :=
  match d.funct.toNat with
  | 32 => some (.add d.rd d.rs d.rt)
  | 33 => some (.addu d.rd d.rs d.rt)
  | 34 => some (.sub d.rd d.rs d.rt)
  | 35 => some (.subu d.rd d.rs d.rt)
  | _ => none

/-- Dispatch first on opcode, then for opcode 0 on function code (R71, R73). The fields an
instruction does not use are dropped here (R72, decision D7: log entry 9). -/
def selectInstr (d : DecodedInstruction) : Option Instr :=
  match d.op.toNat with
  | 0 => selectRType d
  | 2 => some (.j d.target)
  | 3 => some (.jal d.target)
  | 4 => some (.beq d.rs d.rt d.imm)
  | 5 => some (.bne d.rs d.rt d.imm)
  | 6 => some (.blez d.rs d.imm)
  | 7 => some (.bgtz d.rs d.imm)
  | 8 => some (.addi d.rt d.rs d.imm)
  | 9 => some (.addiu d.rt d.rs d.imm)
  | 10 => some (.slti d.rt d.rs d.imm)
  | 11 => some (.sltiu d.rt d.rs d.imm)
  | 12 => some (.andi d.rt d.rs d.imm)
  | 13 => some (.ori d.rt d.rs d.imm)
  | 14 => some (.xori d.rt d.rs d.imm)
  | 15 => some (.lui d.rt d.imm)
  | 35 => some (.lw d.rt d.rs d.imm)
  | 43 => some (.sw d.rt d.rs d.imm)
  | _ => none

/-- The instruction a fetched word is, or `none` for an unimplemented word (R76). -/
def decodeWord (w : Word) : Option Instr := selectInstr (splitFields w)

/-! ### Bytes: big-endian, the byte at the lowest address is bits 31:24 (R33, R60) -/

/-- The word whose bytes, in address order, are `b0 b1 b2 b3` (R33). -/
def wordOfBytes (b0 b1 b2 b3 : Byte) : Word := b0 ++ b1 ++ b2 ++ b3

/-- The byte of a word that lies at offset `k` from its address, `k = 0 .. 3` (R33, R34). -/
def byteOfWord (w : Word) (k : Nat) : Byte := w.extractLsb' (24 - 8 * k) 8

/-- The four bytes of a word in address order (R33). -/
def bytesOfWord (w : Word) : List Byte :=
  [byteOfWord w 0, byteOfWord w 1, byteOfWord w 2, byteOfWord w 3]

/-- Decode the instruction at the head of a list of bytes; the rest of the list is handed back. -/
def decodeBytes : List Byte → Except DecodeReject (Instr × List Byte)
  | b0 :: b1 :: b2 :: b3 :: rest =>
    match decodeWord (wordOfBytes b0 b1 b2 b3) with
    | some i => .ok (i, rest)
    | none => .error (.unimplemented (opField (wordOfBytes b0 b1 b2 b3))
        (functField (wordOfBytes b0 b1 b2 b3)))
  | bs => .error (.truncated bs.length)

/-- The 32-bit word an opcode-table word stands for: every bit above `nbits` is 0. -/
def tableWord (nbits w : Nat) : Word := BitVec.ofNat 32 (w % 2 ^ nbits)

/-- The instruction the decoder reads from the bytes of an instruction whose bits are `w`, numbered
as spec/opcode_table.json numbers them. -/
def decodeTableWord (nbits w : Nat) : Option Instr :=
  match decodeBytes (bytesOfWord (tableWord nbits w)) with
  | .ok (i, _) => some i
  | .error _ => none

/-! ### The encoder -/

/-- The 5 bits of a register index (R69). -/
def regBits (r : RegIdx) : BitVec 5 := BitVec.ofFin r

/-- R-type layout (R63, R82); the ignored bits 10:6 are written as zero (R72). -/
def encodeR (funct : BitVec 6) (rd rs rt : RegIdx) : Word :=
  (0#6 : BitVec 6) ++ regBits rs ++ regBits rt ++ regBits rd ++ (0#5 : BitVec 5) ++ funct

/-- I-type layout (R64, R82). -/
def encodeI (op : BitVec 6) (rs rt : RegIdx) (imm16 : BitVec 16) : Word :=
  op ++ regBits rs ++ regBits rt ++ imm16

/-- J-type layout (R65, R82). -/
def encodeJ (op : BitVec 6) (target : BitVec 26) : Word := op ++ target

/-- The 16-bit field of a sign-extended immediate (R82). -/
def immBits (imm : Word) : BitVec 16 := imm.extractLsb' 0 16

/-- The word of an instruction (R70, R82), ignored fields zero as R72 asks of an assembler. -/
def encode : Instr → Word
  | .add rd rs rt => encodeR 32 rd rs rt
  | .addu rd rs rt => encodeR 33 rd rs rt
  | .sub rd rs rt => encodeR 34 rd rs rt
  | .subu rd rs rt => encodeR 35 rd rs rt
  | .j target => encodeJ 2 target
  | .jal target => encodeJ 3 target
  | .beq rs rt imm => encodeI 4 rs rt (immBits imm)
  | .bne rs rt imm => encodeI 5 rs rt (immBits imm)
  | .blez rs imm => encodeI 6 rs 0 (immBits imm)
  | .bgtz rs imm => encodeI 7 rs 0 (immBits imm)
  | .addi rt rs imm => encodeI 8 rs rt (immBits imm)
  | .addiu rt rs imm => encodeI 9 rs rt (immBits imm)
  | .slti rt rs imm => encodeI 10 rs rt (immBits imm)
  | .sltiu rt rs imm => encodeI 11 rs rt (immBits imm)
  | .andi rt rs imm => encodeI 12 rs rt (immBits imm)
  | .ori rt rs imm => encodeI 13 rs rt (immBits imm)
  | .xori rt rs imm => encodeI 14 rs rt (immBits imm)
  | .lui rt imm => encodeI 15 0 rt (immBits imm)
  | .lw rt rs imm => encodeI 35 rs rt (immBits imm)
  | .sw rt rs imm => encodeI 43 rs rt (immBits imm)

/-- The bytes of an instruction in address order (R34, R60). -/
def encodeBytes (i : Instr) : List Byte := bytesOfWord (encode i)

/-! ### The opcode table as data, and the ignored bits -/

/-- The table of R70: mask and match of each of the 20 instructions. -/
def opcodeTable : List OpcodeRow :=
  [⟨.add, 0xFC00003F#32, 0x00000020#32⟩, ⟨.addu, 0xFC00003F#32, 0x00000021#32⟩,
   ⟨.sub, 0xFC00003F#32, 0x00000022#32⟩, ⟨.subu, 0xFC00003F#32, 0x00000023#32⟩,
   ⟨.j, 0xFC000000#32, 0x08000000#32⟩, ⟨.jal, 0xFC000000#32, 0x0C000000#32⟩,
   ⟨.beq, 0xFC000000#32, 0x10000000#32⟩, ⟨.bne, 0xFC000000#32, 0x14000000#32⟩,
   ⟨.blez, 0xFC000000#32, 0x18000000#32⟩, ⟨.bgtz, 0xFC000000#32, 0x1C000000#32⟩] ++
  [⟨.addi, 0xFC000000#32, 0x20000000#32⟩, ⟨.addiu, 0xFC000000#32, 0x24000000#32⟩,
   ⟨.slti, 0xFC000000#32, 0x28000000#32⟩, ⟨.sltiu, 0xFC000000#32, 0x2C000000#32⟩,
   ⟨.andi, 0xFC000000#32, 0x30000000#32⟩, ⟨.ori, 0xFC000000#32, 0x34000000#32⟩,
   ⟨.xori, 0xFC000000#32, 0x38000000#32⟩, ⟨.lui, 0xFC000000#32, 0x3C000000#32⟩,
   ⟨.lw, 0xFC000000#32, 0x8C000000#32⟩, ⟨.sw, 0xFC000000#32, 0xAC000000#32⟩]

/-- The bits of the word that the instruction ignores (the table of R72): bits 10:6 of the R-type
instructions, `rt` of `blez` and `bgtz`, `rs` of `lui`. -/
def ignoredBits : Mnemonic → Word
  | .add => 0x000007C0#32
  | .addu => 0x000007C0#32
  | .sub => 0x000007C0#32
  | .subu => 0x000007C0#32
  | .blez => 0x001F0000#32
  | .bgtz => 0x001F0000#32
  | .lui => 0x03E00000#32
  | .j => 0
  | .jal => 0
  | .beq => 0
  | .bne => 0
  | .addi => 0
  | .addiu => 0
  | .slti => 0
  | .sltiu => 0
  | .andi => 0
  | .ori => 0
  | .xori => 0
  | .lw => 0
  | .sw => 0

end Sys2Proof
end

