-- ==== Sys2Proof/Config.lean ====
section
/-! DEFINITION. The two build parameters of the core (R5, R6). They are fixed when the core is
built; no step reads `resetPc` and no step changes either. This hardware has no free value: every
step is a function of the state (R97), so there is no opaque constant here. -/

namespace Sys2Proof

/-- The build parameters: `MEM_CAPACITY` (R5) and `RESET_PC` (R6). -/
structure Config where
  /-- `MEM_CAPACITY`, the number of bytes of the memory. -/
  memCapacity : Nat
  /-- `RESET_PC`, the value `reset()` gives the program counter. -/
  resetPc : Word
deriving DecidableEq, Repr

/-- The defaults: 4096 bytes (R5, the document's own default) and start address 0.
DESIGN CHOICE (log entry 2): R6 leaves `RESET_PC` open and suggests 0. -/
def Config.default : Config where
  memCapacity := 4096
  resetPc := 0

/-- The range R5 gives the capacity: `0 <= MEM_CAPACITY <= 2^32` (log entry 3). -/
abbrev Config.wf (c : Config) : Prop := c.memCapacity ≤ 2 ^ 32

end Sys2Proof
end

