-- ==== Sys2Proof/Machine/State.lean ====
section
/-! DEFINITION. The state of the core (10_state.md section 1, closed by R18), the reasons a step can
stop (R170), and the state after reset (R21 to R24, R200). -/

namespace Sys2Proof.Machine

/-- The memory array as plain data: the listed bytes, addresses rising, none equal to
`Memory.fill`; every other byte of the array is `Memory.fill`. The form is `Memory.wf` (Ops.lean). -/
abbrev Memory := List Host.Cell

/-- What an unlisted byte of the array holds: `0x00`, the reset contents of R24. -/
def Memory.fill : Byte := 0x00

/-- Everything the spec gives the core (R18), and the build parameters beside it. -/
structure State where
  /-- The build parameters `MEM_CAPACITY` and `RESET_PC` (R5, R6). The spec counts them among the
  parameters, not the state; they stand here because `step` takes nothing but a state (R97 names
  them as its only other inputs). No step changes them. DESIGN CHOICE (log entry 1). -/
  cfg : Config
  /-- General registers `x[1] .. x[31]`: element `i` is `x[i+1]` (R10). `x[0]` is hard-wired to
  zero and has no storage (R11). Read and written through `getReg` and `setReg` alone. -/
  gpr : Vector Word 31
  /-- The program counter (R13). -/
  pc : Word
  /-- The link register, a register of its own (R16). -/
  lr : Word
  /-- The memory bytes, instructions and data together (R17). -/
  mem : Memory
deriving DecidableEq, Repr

/-- The two widths of a memory access (R31, R36). -/
inductive AccessSize where
  | byte
  | word
deriving DecidableEq, Repr

/-- The step errors: a closed taxonomy of three (R170). A step that returns one changes nothing
(R176). They are safe: the spec names each, and the machine stops as the spec says. -/
inductive Fault where
  /-- An access beyond the capacity (R171). Raised by the fetch of any step, by `lw` and `sw`, and
  by the host's memory operations. The payload is the spec's convenience (D10). Safe. -/
  | outOfBounds (addr : Word) (size : AccessSize)
  /-- A word access, in bounds, at an address that is no multiple of 4 (R172). Raised by the fetch,
  by `lw` and `sw`, and by the host's word operations. The payload is as above. Safe. -/
  | misaligned (addr : Word)
  /-- The fetched word is none of the 20 instructions (R173); its `op` and `funct` fields. Raised
  by the execute stage of a step. Safe. -/
  | unimplementedInstruction (op funct : BitVec 6)
deriving DecidableEq, Repr

/-- Refusals: none is ever answered by this model, since every instruction has its meaning. -/
inductive Refusal where
  /-- An instruction of the table without a meaning, by its mnemonic. Raised by an arm of `exec`
  alone; no arm of this model raises it. Safe. -/
  | notModelled (mnemonic : String)
deriving DecidableEq, Repr

/-- The state after `reset()` of a core built with the parameters `c` (R200): general registers 0
(R21), `pc = RESET_PC` (R22), `LR = 0` (R23, decision D19: log entry 13), every byte `0x00` (R24).
It depends on the parameters alone (R201). -/
def State.resetOf (c : Config) : State where
  cfg := c
  gpr := Vector.replicate 31 0
  pc := c.resetPc
  lr := 0
  mem := []

/-- The state after reset of the core with the default parameters. -/
def State.reset : State := State.resetOf Config.default

end Sys2Proof.Machine
end

