-- ==== Sys2Proof/Machine/Ops.lean ====
section
/-! DEFINITION. The named operations over registers and memory: register reads and writes with the
hard-wired register 0 (R11), the memory array, its bounds and alignment checks (R36 to R39), the four
memory operations (R31), the fetch (R40, R92), and how an instruction ends (R95) or raises an error
(R176). This core takes no exception: it saves no state, changes no mode and has no vector or return
(R176, R178), so `raise` is all there is to taking one. -/

namespace Sys2Proof.Machine

/-! ### Registers -/

/-- `x[r]`: register 0 reads 0 in every state (R10, R11). -/
def State.getReg (s : State) (r : RegIdx) : Word :=
  if h : r.val = 0 then 0 else s.gpr[r.val - 1]'(by omega)

/-- `x[r] <- v`: a write to register 0 is discarded (R11). -/
def State.setReg (s : State) (r : RegIdx) (v : Word) : State :=
  if h : r.val = 0 then s else { s with gpr := s.gpr.set (r.val - 1) v (by omega) }

/-- `pc <- t` (R14). -/
def State.setPc (s : State) (t : Word) : State := { s with pc := t }

/-- `LR <- v` (R16). -/
def State.setLr (s : State) (v : Word) : State := { s with lr := v }

/-- The state with its memory array replaced. -/
def State.setMem (s : State) (m : Memory) : State := { s with mem := m }

/-- `npc`, the already-incremented PC: `pc + 4` modulo `2^32` (R14, decision D5: log entry 4). -/
def State.npc (s : State) : Word := s.pc + 4

/-! ### The memory array -/

/-- The byte at address `a`. -/
def Memory.get : Memory → Nat → Byte
  | [], _ => Memory.fill
  | (k, b) :: m, a => if k = a then b else Memory.get m a

/-- Drop whatever is listed at address `a`. -/
def Memory.erase (m : Memory) (a : Nat) : Memory := m.filter fun c => c.1 != a

/-- Put a cell at its place among rising addresses. -/
def Memory.insert : Memory → Nat → Byte → Memory
  | [], a, v => [(a, v)]
  | (k, b) :: m, a, v => if a < k then (a, v) :: (k, b) :: m else (k, b) :: Memory.insert m a v

/-- The array with byte `v` at address `a`, in canonical form again. -/
def Memory.set (m : Memory) (a : Nat) (v : Byte) : Memory :=
  if v = Memory.fill then m.erase a else (m.erase a).insert a v

/-- The canonical form for an array of `cap` bytes: addresses strictly rising, every one in
`0 .. cap - 1` (R17), no byte listed that an unlisted address reads as. -/
abbrev Memory.wf (cap : Nat) (m : Memory) : Prop :=
  m.Pairwise (fun a b => a.1 < b.1) ∧ ∀ c ∈ m, c.2 ≠ Memory.fill ∧ c.1 < cap

/-- The big-endian word at address `a` (R33). -/
def Memory.getWord (m : Memory) (a : Nat) : Word :=
  wordOfBytes (m.get a) (m.get (a + 1)) (m.get (a + 2)) (m.get (a + 3))

/-- The array with the word `v` stored big-endian at `a .. a+3` (R33). -/
def Memory.setWord (m : Memory) (a : Nat) (v : Word) : Memory :=
  (((m.set a (byteOfWord v 0)).set (a + 1) (byteOfWord v 1)).set (a + 2) (byteOfWord v 2)).set
    (a + 3) (byteOfWord v 3)

/-! ### The memory interface -/

/-- The number of bytes an access moves (R31). -/
def AccessSize.bytes : AccessSize → Nat
  | .byte => 1
  | .word => 4

/-- The checks of R38 and R39, in their order (decision D4: log entry 7): bounds in the unbounded
naturals, never modulo `2^32` (R36); then, for a word, alignment (R37). -/
def accessFault (cap : Nat) (addr : Word) (size : AccessSize) : Option Fault :=
  if addr.toNat + size.bytes > cap then some (.outOfBounds addr size)
  else if size = .word ∧ addr.toNat % 4 ≠ 0 then some (.misaligned addr)
  else none

/-- `v` if the access passes its checks, else the error. -/
def checked {α : Type} (s : State) (addr : Word) (size : AccessSize) (v : α) : Except Fault α :=
  match accessFault s.cfg.memCapacity addr size with
  | some e => .error e
  | none => .ok v

/-- `read_byte(addr)`, `MemRead(addr, 1)` (R31, R38). The host's alone (R32, D23). -/
def State.readByte (s : State) (addr : Word) : Except Fault Byte :=
  checked s addr .byte (s.mem.get addr.toNat)

/-- `read_word(addr)`, `MemRead(addr, 4)` (R31, R38). -/
def State.readWord (s : State) (addr : Word) : Except Fault Word :=
  checked s addr .word (s.mem.getWord addr.toNat)

/-- `write_byte(addr, v)`, `MemWrite(addr, 1, v)` (R31, R39). The host's alone (R32, D23). -/
def State.writeByte (s : State) (addr : Word) (v : Byte) : Except Fault State :=
  checked s addr .byte (s.setMem (s.mem.set addr.toNat v))

/-- `write_word(addr, v)`, `MemWrite(addr, 4, v)` (R31, R39): all four bytes or none (R43). -/
def State.writeWord (s : State) (addr : Word) (v : Word) : Except Fault State :=
  checked s addr .word (s.setMem (s.mem.setWord addr.toNat v))

/-- The fetch: `MemRead(pc, 4)` (R40, R92). -/
def State.fetchWord (s : State) : Except Fault Word := s.readWord s.pc

/-! ### How an instruction ends -/

/-- `raise e`: the step ends with the error and no write of it takes effect (R176). The outcome
carries no state: the state is still the one at the start of the step (log entry 6). -/
def raise (e : Fault) : Host.Outcome State Fault Refusal := .fault e

/-- Go on with what a memory operation gave, or raise its error (R91). -/
def orRaise {α : Type} (r : Except Fault α) (k : α → Host.Outcome State Fault Refusal) :
    Host.Outcome State Fault Refusal :=
  match r with
  | .error e => raise e
  | .ok v => k v

/-- `x[d] <- v; pc <- npc`: the end of every instruction that writes a general register (R95). -/
def writeBack (d : RegIdx) (v : Word) (s : State) : Host.Outcome State Fault Refusal :=
  .next ((s.setReg d v).setPc s.npc)

/-- `pc <- t`: the end of a jump or a branch (R14, R95). The destination is not checked here
(decision D20: log entry 16). -/
def transfer (t : Word) (s : State) : Host.Outcome State Fault Refusal := .next (s.setPc t)

/-- What a word that is no instruction does when it is executed (R76, R173). -/
def raiseUnimplemented (w : Word) : Host.Outcome State Fault Refusal :=
  raise (.unimplementedInstruction (opField w) (functField w))

/-- Store a word where the next fetch reads it, if there is a word to fetch there. -/
def State.placeWord (s : State) (w : Word) : State :=
  match s.writeWord s.pc w with
  | .ok t => t
  | .error _ => s

end Sys2Proof.Machine
end

