-- ==== Sys2Proof/Machine/Flags.lean ====
section
/-! DEFINITION. The core has no flags or condition codes (R18); its comparisons are made inside
`slti`, `sltiu` and the branches. They are here, once each. -/

namespace Sys2Proof.Machine

/-- `a <s b`: signed comparison (00_scope.md section 5; R143). -/
def ltSigned (a b : Word) : Bool := a.slt b

/-- `a <u b`: comparison of the bit patterns as unsigned numbers (R144). -/
def ltUnsigned (a b : Word) : Bool := a.ult b

/-- `a == b`: equality of the bit patterns (R131). -/
def sameBits (a b : Word) : Bool := a == b

/-- `signed(a) <= 0`: `a = 0` or `a[31] = 1` (R133). -/
def atMostZero (a : Word) : Bool := a == 0 || a.msb

/-- `signed(a) > 0`: `a != 0` and `a[31] = 0` (R134). -/
def aboveZero (a : Word) : Bool := a != 0 && !a.msb

/-- The result of a set-on-less-than: 1 or 0 (R143, R144). -/
def truthWord (b : Bool) : Word := if b then 1 else 0

end Sys2Proof.Machine
end

