-- ==== Sys2Proof/Machine/Operands.lean ====
section
/-! DEFINITION. The operand forms: the immediate forms recovered from the sign-extended immediate
(R66), the branch and jump destinations (R67, R68), the effective address (R162). -/

namespace Sys2Proof.Machine

/-- `zimm`, the zero-extended immediate: `imm & 0x0000FFFF` (R66, R150). -/
def zeroExtendedImm (imm : Word) : Word := imm &&& 0x0000FFFF#32

/-- `imm16 ++ 0x0000`, that is `imm << 16` (R66, R154). -/
def upperImm (imm : Word) : Word := imm <<< 16

/-- The branch displacement in bytes: `sext_16(imm16) << 2` (R67). -/
def branchOffset (imm : Word) : Word := imm <<< 2

/-- Where a branch goes: `npc + off` if taken, else `npc` (R130). -/
def branchDest (s : State) (taken : Bool) (imm : Word) : Word :=
  if taken then s.npc + branchOffset imm else s.npc

/-- Where a jump goes: `npc[31:28] ++ target ++ 0b00`, the region bits from the incremented PC
(R68, R120, decision D6: log entry 8). -/
def jumpDest (s : State) (target : BitVec 26) : Word :=
  s.npc.extractLsb' 28 4 ++ target ++ (0#2 : BitVec 2)

/-- `ea = x[rs] + sext_16(imm16)` modulo `2^32`: the content of `rs`, not its index (R162,
decision D5: log entry 4). -/
def effectiveAddress (s : State) (rs : RegIdx) (imm : Word) : Word := s.getReg rs + imm

end Sys2Proof.Machine
end

