-- ==== Sys2Proof/Machine/Branches.lean ====
section
/-! DEFINITION. Conditional branches (43_branches.md): `beq`, `bne`, `blez`, `bgtz`, on the frame of
R130. There is no delay slot (R210). -/

namespace Sys2Proof.Machine

/-- `beq rs, rt, disp` (R131). -/
def execBeq (rs rt : RegIdx) (imm : Word) (s : State) : Host.Outcome State Fault Refusal :=
  transfer (branchDest s (sameBits (s.getReg rs) (s.getReg rt)) imm) s

/-- `bne rs, rt, disp` (R132). -/
def execBne (rs rt : RegIdx) (imm : Word) (s : State) : Host.Outcome State Fault Refusal :=
  transfer (branchDest s (!sameBits (s.getReg rs) (s.getReg rt)) imm) s

/-- `blez rs, disp` (R133): signed. -/
def execBlez (rs : RegIdx) (imm : Word) (s : State) : Host.Outcome State Fault Refusal :=
  transfer (branchDest s (atMostZero (s.getReg rs)) imm) s

/-- `bgtz rs, disp` (R134): signed. -/
def execBgtz (rs : RegIdx) (imm : Word) (s : State) : Host.Outcome State Fault Refusal :=
  transfer (branchDest s (aboveZero (s.getReg rs)) imm) s

end Sys2Proof.Machine
end

