-- ==== Sys2Proof/Machine/ImmArith.lean ====
section
/-! DEFINITION. Immediate arithmetic and comparison (44_imm_arith.md): `addi`, `addiu`, `slti`,
`sltiu`, all with the sign-extended immediate (R140). -/

namespace Sys2Proof.Machine

/-- `addi rt, rs, imm` (R141): wraps, never traps (decision D9: log entry 11). -/
def execAddi (rt rs : RegIdx) (imm : Word) (s : State) : Host.Outcome State Fault Refusal :=
  writeBack rt (s.getReg rs + imm) s

/-- `addiu rt, rs, imm` (R142): the immediate is sign-extended (decision D8: log entry 10). -/
def execAddiu (rt rs : RegIdx) (imm : Word) (s : State) : Host.Outcome State Fault Refusal :=
  writeBack rt (s.getReg rs + imm) s

/-- `slti rt, rs, imm` (R143): signed comparison. -/
def execSlti (rt rs : RegIdx) (imm : Word) (s : State) : Host.Outcome State Fault Refusal :=
  writeBack rt (truthWord (ltSigned (s.getReg rs) imm)) s

/-- `sltiu rt, rs, imm` (R144): the immediate sign-extended, then an unsigned comparison
(decision D8: log entry 10). -/
def execSltiu (rt rs : RegIdx) (imm : Word) (s : State) : Host.Outcome State Fault Refusal :=
  writeBack rt (truthWord (ltUnsigned (s.getReg rs) imm)) s

end Sys2Proof.Machine
end

