-- ==== Sys2Proof/Machine/ImmLogic.lean ====
section
/-! DEFINITION. Immediate logic and load upper immediate (45_imm_logic.md): `andi`, `ori`, `xori`
with the zero-extended immediate (R150), and `lui`. -/

namespace Sys2Proof.Machine

/-- `andi rt, rs, imm` (R151). -/
def execAndi (rt rs : RegIdx) (imm : Word) (s : State) : Host.Outcome State Fault Refusal :=
  writeBack rt (s.getReg rs &&& zeroExtendedImm imm) s

/-- `ori rt, rs, imm` (R152). -/
def execOri (rt rs : RegIdx) (imm : Word) (s : State) : Host.Outcome State Fault Refusal :=
  writeBack rt (s.getReg rs ||| zeroExtendedImm imm) s

/-- `xori rt, rs, imm` (R153). -/
def execXori (rt rs : RegIdx) (imm : Word) (s : State) : Host.Outcome State Fault Refusal :=
  writeBack rt (s.getReg rs ^^^ zeroExtendedImm imm) s

/-- `lui rt, imm` (R154): reads no register. -/
def execLui (rt : RegIdx) (imm : Word) (s : State) : Host.Outcome State Fault Refusal :=
  writeBack rt (upperImm imm) s

end Sys2Proof.Machine
end

