-- ==== Sys2Proof/Machine/Jumps.lean ====
section
/-! DEFINITION. Jumps (42_jumps.md): `j`, `jal`. There is no delay slot (R210). -/

namespace Sys2Proof.Machine

/-- `j addr` (R121). -/
def execJ (target : BitVec 26) (s : State) : Host.Outcome State Fault Refusal :=
  transfer (jumpDest s target) s

/-- `jal addr` (R122): `LR <- npc`, the link register being no general register (decision D2:
log entry 5); then as `j`. -/
def execJal (target : BitVec 26) (s : State) : Host.Outcome State Fault Refusal :=
  transfer (jumpDest s target) (s.setLr s.npc)

end Sys2Proof.Machine
end

