-- ==== Sys2Proof/Machine/LoadStore.lean ====
section
/-! DEFINITION. Load and store word (46_load_store.md): `lw`, `sw`. -/

namespace Sys2Proof.Machine

/-- `lw rt, off(rs)` (R160). The access is made and checked whatever `rt` is; for register 0 only
the write is dropped (decision D24: log entry 15). -/
def execLw (rt rs : RegIdx) (imm : Word) (s : State) : Host.Outcome State Fault Refusal :=
  orRaise (s.readWord (effectiveAddress s rs imm)) fun v => writeBack rt v s

/-- `sw rt, off(rs)` (R161): `rt` is a source here. -/
def execSw (rt rs : RegIdx) (imm : Word) (s : State) : Host.Outcome State Fault Refusal :=
  orRaise (s.writeWord (effectiveAddress s rs imm) (s.getReg rt)) fun t => transfer s.npc t

end Sys2Proof.Machine
end

