-- ==== Sys2Proof/Machine/RTypeArith.lean ====
section
/-! DEFINITION. Register-register arithmetic (41_rtype_arith.md): `add`, `addu`, `sub`, `subu`. All
wrap modulo `2^32`; none sets a flag or raises an error (R114). -/

namespace Sys2Proof.Machine

/-- `add rd, rs, rt` (R110): wraps, never traps. -/
def execAdd (rd rs rt : RegIdx) (s : State) : Host.Outcome State Fault Refusal :=
  writeBack rd (s.getReg rs + s.getReg rt) s

/-- `addu rd, rs, rt` (R111). -/
def execAddu (rd rs rt : RegIdx) (s : State) : Host.Outcome State Fault Refusal :=
  writeBack rd (s.getReg rs + s.getReg rt) s

/-- `sub rd, rs, rt` (R112): `rs` minus `rt`; wraps, never traps. -/
def execSub (rd rs rt : RegIdx) (s : State) : Host.Outcome State Fault Refusal :=
  writeBack rd (s.getReg rs - s.getReg rt) s

/-- `subu rd, rs, rt` (R113). -/
def execSubu (rd rs rt : RegIdx) (s : State) : Host.Outcome State Fault Refusal :=
  writeBack rd (s.getReg rs - s.getReg rt) s

end Sys2Proof.Machine
end

