-- ==== Sys2Proof/Machine/Step.lean ====
section
/-! DEFINITION. One step: fetch, decode, execute, commit (R91). -/

namespace Sys2Proof.Machine

/-- One step of the core (R91): a new state, or an error with the state unchanged (R96). -/
def step (s : State) : Host.Outcome State Fault Refusal :=
  orRaise s.fetchWord fun w =>
    match decodeWord w with
    | some i => exec i s
    | none => raiseUnimplemented w

/-- `s` with the opcode-table word `w` stored where the next step fetches: the four bytes at `pc`,
and nothing else. It stands for the loader (R204, log entry 17). Where no word can be fetched at `pc` (out of
bounds or misaligned), no program can be placed there and the state is `s`. -/
def State.withFetchWord (s : State) (nbits w : Nat) : State := s.placeWord (tableWord nbits w)

end Sys2Proof.Machine
end

