-- ==== Sys2Proof/Machine/Harness.lean ====
section
/-! DEFINITION. What the external agents do to the core (R98, R207): `reset()`, the image load
between `reset()` and the first step, a call of `step()` with its result, and a run of such calls.
The host's reads and writes of memory are the four operations of Ops.lean (R31, R32). -/

namespace Sys2Proof.Machine

/-- `reset()` (R200, R201): the reset state of the same core, whatever the state was. -/
def hostReset (s : State) : State := State.resetOf s.cfg

/-- The loader writes an image, a list of addresses and bytes, into memory (R204, R205) and stops
at the first address outside it (U20). It writes memory alone (decision D21: log entry 17). -/
def loadImage : State → List (Word × Byte) → Except Fault State
  | s, [] => .ok s
  | s, (a, b) :: image =>
    match s.writeByte a b with
    | .error e => .error e
    | .ok t => loadImage t image

/-- The launch state: the image over the reset state (R206). -/
def launch (c : Config) (image : List (Word × Byte)) : Except Fault State :=
  loadImage (State.resetOf c) image

/-- What a call of `step()` returns to the harness (R96). -/
inductive CallResult where
  /-- One instruction completed. -/
  | success
  /-- A structured error. -/
  | error (e : Fault)
  /-- No meaning in this model; no step of this model answers it. -/
  | noMeaning (r : Refusal)
deriving DecidableEq, Repr

/-- A call of `step()`: the state after the call and the result. On an error the state is the one
before the call, `pc` included (R96, R176, decision D3: log entry 6). -/
def callStep (s : State) : State × CallResult :=
  match step s with
  | .next t => (t, .success)
  | .fault e => (s, .error e)
  | .refused r => (s, .noMeaning r)

/-- A run: `n` calls of `step()`, or fewer if one returns an error (R100, decision D16: log entry
14). The result is that of the last call made. -/
def runSteps : Nat → State → State × CallResult
  | 0, s => (s, .success)
  | n + 1, s =>
    match callStep s with
    | (t, .success) => runSteps n t
    | (t, r) => (t, r)

end Sys2Proof.Machine
end

