-- ==== Sys2Proof/Safety.lean ====
section
/-! DEFINITION. The terms in which claims speak: the invariant of the state, the registers an
instruction names (R20), and what two states have in common. -/

namespace Sys2Proof.Machine

/-- A state that a core can be in: its capacity is in range (R5) and its memory is the canonical
form of an array of that capacity (R17). -/
abbrev State.wf (s : State) : Prop := s.cfg.wf ∧ s.mem.wf s.cfg.memCapacity

/-- The program counter is a multiple of 4 (R15). -/
abbrev State.pcAligned (s : State) : Prop := s.pc.toNat % 4 = 0

/-- The invariant of a run: a well-formed state with an aligned program counter. -/
abbrev State.Inv (s : State) : Prop := s.wf ∧ s.pcAligned

/-- The fetch of the next step cannot return `Misaligned` (R172: that needs a misaligned `pc`). -/
def FetchesAligned (s : State) : Prop := ∀ a, s.fetchWord ≠ .error (.misaligned a)

/-- The names of the three errors (R170). Two errors of one name are the same error; what they
carry beside it is the spec's convenience (D10). -/
inductive ErrorName where
  | outOfBounds
  | misaligned
  | unimplementedInstruction
deriving DecidableEq, Repr

/-- The name of an error. -/
def Fault.name : Fault → ErrorName
  | .outOfBounds _ _ => .outOfBounds
  | .misaligned _ => .misaligned
  | .unimplementedInstruction _ _ => .unimplementedInstruction

/-- The general register an instruction writes (R20, column `writes`). -/
def writtenReg : Instr → Option RegIdx
  | .add rd _ _ => some rd
  | .addu rd _ _ => some rd
  | .sub rd _ _ => some rd
  | .subu rd _ _ => some rd
  | .j _ => none
  | .jal _ => none
  | .beq _ _ _ => none
  | .bne _ _ _ => none
  | .blez _ _ => none
  | .bgtz _ _ => none
  | .addi rt _ _ => some rt
  | .addiu rt _ _ => some rt
  | .slti rt _ _ => some rt
  | .sltiu rt _ _ => some rt
  | .andi rt _ _ => some rt
  | .ori rt _ _ => some rt
  | .xori rt _ _ => some rt
  | .lui rt _ => some rt
  | .lw rt _ _ => some rt
  | .sw _ _ _ => none

/-- The general registers an instruction reads (R20, column `reads`). -/
def readRegs : Instr → List RegIdx
  | .add _ rs rt => [rs, rt]
  | .addu _ rs rt => [rs, rt]
  | .sub _ rs rt => [rs, rt]
  | .subu _ rs rt => [rs, rt]
  | .j _ => []
  | .jal _ => []
  | .beq rs rt _ => [rs, rt]
  | .bne rs rt _ => [rs, rt]
  | .blez rs _ => [rs]
  | .bgtz rs _ => [rs]
  | .addi _ rs _ => [rs]
  | .addiu _ rs _ => [rs]
  | .slti _ rs _ => [rs]
  | .sltiu _ rs _ => [rs]
  | .andi _ rs _ => [rs]
  | .ori _ rs _ => [rs]
  | .xori _ rs _ => [rs]
  | .lui _ _ => []
  | .lw _ rs _ => [rs]
  | .sw rt rs _ => [rs, rt]

/-- Every byte of memory reads the same in `t` as in `s`, out-of-bounds reads included. -/
def SameMemory (s t : State) : Prop := ∀ a : Word, t.readByte a = s.readByte a

/-- Every general register reads the same in `t` as in `s`. -/
def SameRegs (s t : State) : Prop := ∀ r : RegIdx, t.getReg r = s.getReg r

/-- The address of the next instruction in memory, `npc`, as a number: `pc + 4` modulo `2^32` (R91). -/
def nextAddress (s : State) : Nat := (s.pc.toNat + 4) % 2 ^ 32

/-- The destination of a taken branch, as a number: `pc + 4 + 4 * signed(imm)` modulo `2^32` (R130). -/
def takenAddress (s : State) (imm16 : BitVec 16) : Nat :=
  ((s.pc.toNat + 4 + 4 * signed16 imm16 : Int) % 2 ^ 32).toNat

/-- The destination of a jump, as a number: the upper four bits of `npc`, the target, two zero bits
(R120). -/
def jumpAddress (s : State) (target : BitVec 26) : Nat :=
  nextAddress s / 2 ^ 28 * 2 ^ 28 + 4 * target.toNat

/-- `t` is `s` after an instruction that writes `v` to general register `d` and goes on at `npc`:
register `d` holds `v`, or still zero if it is register 0 (R11); every other general register, the
link register, every byte of memory and the build parameters are as before; `pc` is `npc` (R14). -/
def WroteReg (s t : State) (d : RegIdx) (v : Word) : Prop :=
  t.getReg d = (if d = 0 then 0 else v) ∧ (∀ r, r ≠ d → t.getReg r = s.getReg r) ∧
  t.pc.toNat = nextAddress s ∧ t.lr = s.lr ∧ SameMemory s t ∧ t.cfg = s.cfg

/-- `t` is `s` with the program counter at address `a`, and nothing else changed. -/
def WentTo (s t : State) (a : Nat) : Prop :=
  t.pc.toNat = a ∧ SameRegs s t ∧ t.lr = s.lr ∧ SameMemory s t ∧ t.cfg = s.cfg

end Sys2Proof.Machine
end

