-- ==== Sys2Proof/Certificates/Slice0/Obligations.lean ====
section
/-! DEFINITION. The statements for the provers. Their English, basis and citations are in
OBLIGATIONS.json. Where a statement rests on a decision the spec marks as its own (a `D<n>` of
spec/92_eei_decisions.md) or on a choice of this model, its docstring names it with its log entry. -/

open Sys2Proof Sys2Proof.Machine

/-! ### Reset, launch, register 0 -/

/-- R21, R22: what reset leaves in the general registers and the program counter, for every build of
the core and whatever the state before. -/
def Obligations.ResetClearsRegistersAndStartsAtResetPc : Prop :=
  (∀ c : Config, (∀ r, (State.resetOf c).getReg r = 0) ∧ (State.resetOf c).pc = c.resetPc) ∧
  (∀ s : State, (∀ r, (hostReset s).getReg r = 0) ∧ (hostReset s).pc = s.cfg.resetPc)

/-- R23, R24, R200: reset zeroes the link register (decision D19: log entry 13) and every byte of
memory, and keeps the build parameters. -/
def Obligations.ResetClearsLinkAndMemory : Prop :=
  ∀ s : State, (hostReset s).lr = 0 ∧ (hostReset s).cfg = s.cfg ∧
    (∀ a : Word, a.toNat < s.cfg.memCapacity → (hostReset s).readByte a = .ok 0) ∧
    (∀ a : Word, a.toNat % 4 = 0 → a.toNat + 4 ≤ s.cfg.memCapacity →
      (hostReset s).readWord a = .ok 0)

/-- R201 (derived there): a reset after any run gives the reset state of the same core; nothing of
the run is left. -/
def Obligations.ResetForgetsTheRun : Prop :=
  ∀ (n : Nat) (s : State), hostReset (runSteps n s).1 = State.resetOf s.cfg

/-- R204 to R206 (R206 derived there; decision D21, log entry 17): the launch state is the image over the reset state; an
image with a key outside the memory is refused with `OutOfBounds` (U20). -/
def Obligations.LaunchIsTheImageOverReset : Prop :=
  ∀ (c : Config) (image : List (Word × Byte)),
    ((∀ p ∈ image, p.1.toNat < c.memCapacity) →
      ∃ s, launch c image = .ok s ∧ (∀ r, s.getReg r = 0) ∧ s.lr = 0 ∧ s.pc = c.resetPc ∧
        s.cfg = c ∧ ∀ a : Word, a.toNat < c.memCapacity →
          s.readByte a = .ok ((image.reverse.lookup a).getD 0)) ∧
    ((∃ p ∈ image, c.memCapacity ≤ p.1.toNat) →
      ∃ e, launch c image = .error e ∧ e.name = .outOfBounds)

/-- R11: register 0 reads zero in every state; a write to it has no effect on any state; an
instruction whose destination it is changes nothing but the program counter. That each of them but
`lw` completes in every state is R110 to R114, R140 to R144, R150 to R154 and R188 (derived there),
for `addi` with decision D9 (log entry 11). That a `lw` to it makes the checks of any other `lw` is
R160 with decision D24 (log entry 15). Completion here is for destination register 0; the statements
of the single instructions give it for every destination. -/
def Obligations.RegisterZeroReadsZeroAndDiscardsWrites : Prop :=
  (∀ s : State, s.getReg 0 = 0) ∧ (∀ (s : State) (v : Word), s.setReg 0 v = s) ∧
  (∀ (i : Instr) (s t : State), writtenReg i = some 0 → exec i s = .next t →
    WentTo s t (nextAddress s)) ∧
  (∀ (i : Instr) (s : State), writtenReg i = some 0 → i.mnemonic ≠ .lw → ∃ t, exec i s = .next t) ∧
  (∀ (s : State) (rs rt : RegIdx) (imm : Word) (e : Fault),
    exec (.lw 0 rs imm) s = .fault e ↔ exec (.lw rt rs imm) s = .fault e)

/-! ### Memory -/

/-- R33: the byte at the lowest address is bits 31:24 of the word, for reads, writes and the fetch. -/
def Obligations.WordsAreBigEndian : Prop :=
  (∀ (s : State) (a v : Word), s.readWord a = .ok v →
    ∃ b0 b1 b2 b3 : Byte, s.readByte a = .ok b0 ∧ s.readByte (a + 1) = .ok b1 ∧
      s.readByte (a + 2) = .ok b2 ∧ s.readByte (a + 3) = .ok b3 ∧
      v.toNat = b0.toNat * 2 ^ 24 + b1.toNat * 2 ^ 16 + b2.toNat * 2 ^ 8 + b3.toNat) ∧
  (∀ (s t : State) (a v : Word), s.writeWord a v = .ok t →
    t.readByte a = .ok (v.extractLsb' 24 8) ∧ t.readByte (a + 1) = .ok (v.extractLsb' 16 8) ∧
    t.readByte (a + 2) = .ok (v.extractLsb' 8 8) ∧ t.readByte (a + 3) = .ok (v.extractLsb' 0 8)) ∧
  (∀ (s : State) (w : Word), s.fetchWord = .ok w →
    ∃ b0 b1 b2 b3 : Byte, s.readByte s.pc = .ok b0 ∧ s.readByte (s.pc + 1) = .ok b1 ∧
      s.readByte (s.pc + 2) = .ok b2 ∧ s.readByte (s.pc + 3) = .ok b3 ∧
      w.toNat = b0.toNat * 2 ^ 24 + b1.toNat * 2 ^ 16 + b2.toNat * 2 ^ 8 + b3.toNat)

/-- R35: the round trip at every valid address, in every state. -/
def Obligations.WriteThenReadReturnsTheWord : Prop :=
  ∀ (s : State) (a v : Word), a.toNat % 4 = 0 → a.toNat + 4 ≤ s.cfg.memCapacity →
    ∃ t, s.writeWord a v = .ok t ∧ t.readWord a = .ok v

/-- R39, R43, R44: a write stores the bytes it names and changes no other byte, no register and no
parameter. -/
def Obligations.WritesChangeOnlyTheirBytes : Prop :=
  (∀ (s t : State) (a v : Word), s.writeWord a v = .ok t →
    SameRegs s t ∧ t.pc = s.pc ∧ t.lr = s.lr ∧ t.cfg = s.cfg ∧
    ∀ b : Word, b.toNat < a.toNat ∨ a.toNat + 4 ≤ b.toNat → t.readByte b = s.readByte b) ∧
  (∀ (s t : State) (a : Word) (v : Byte), s.writeByte a v = .ok t →
    SameRegs s t ∧ t.pc = s.pc ∧ t.lr = s.lr ∧ t.cfg = s.cfg ∧ t.readByte a = .ok v ∧
    ∀ b : Word, b ≠ a → t.readByte b = s.readByte b)

/-- R34 (derived there): four byte writes of the loader at an aligned address make
the word whose most significant byte is the one at the lowest address. -/
def Obligations.FourBytesMakeTheWord : Prop :=
  ∀ (s : State) (a : Word) (b0 b1 b2 b3 : Byte), a.toNat % 4 = 0 →
    a.toNat + 4 ≤ s.cfg.memCapacity →
    ∃ (t : State) (v : Word), loadImage s [(a, b0), (a + 1, b1), (a + 2, b2), (a + 3, b3)] = .ok t ∧
      t.readWord a = .ok v ∧
      v.toNat = b0.toNat * 2 ^ 24 + b1.toNat * 2 ^ 16 + b2.toNat * 2 ^ 8 + b3.toNat

/-- R36: an access raises `OutOfBounds` when its address plus its size, summed in the naturals,
passes the capacity, and at no other time. -/
def Obligations.OutOfBoundsExactlyPastTheCapacity : Prop :=
  ∀ (s : State) (a w : Word) (b : Byte),
    ((∃ e, s.readWord a = .error e ∧ e.name = .outOfBounds) ↔ a.toNat + 4 > s.cfg.memCapacity) ∧
    ((∃ e, s.writeWord a w = .error e ∧ e.name = .outOfBounds) ↔
      a.toNat + 4 > s.cfg.memCapacity) ∧
    ((∃ e, s.readByte a = .error e ∧ e.name = .outOfBounds) ↔ a.toNat + 1 > s.cfg.memCapacity) ∧
    ((∃ e, s.writeByte a b = .error e ∧ e.name = .outOfBounds) ↔
      a.toNat + 1 > s.cfg.memCapacity)

/-- R37 to R39: every error of an access, with its payload; the order of the two checks is decision
D4 (log entry 7), the payloads are decision D10 (log entry 12). A byte access is never misaligned. -/
def Obligations.AccessErrorsBoundsThenAlignment : Prop :=
  ∀ (s : State) (a w : Word) (b : Byte) (e : Fault),
    (s.readWord a = .error e ↔
      (a.toNat + 4 > s.cfg.memCapacity ∧ e = .outOfBounds a .word) ∨
      (a.toNat + 4 ≤ s.cfg.memCapacity ∧ a.toNat % 4 ≠ 0 ∧ e = .misaligned a)) ∧
    (s.writeWord a w = .error e ↔
      (a.toNat + 4 > s.cfg.memCapacity ∧ e = .outOfBounds a .word) ∨
      (a.toNat + 4 ≤ s.cfg.memCapacity ∧ a.toNat % 4 ≠ 0 ∧ e = .misaligned a)) ∧
    (s.readByte a = .error e ↔ a.toNat + 1 > s.cfg.memCapacity ∧ e = .outOfBounds a .byte) ∧
    (s.writeByte a b = .error e ↔ a.toNat + 1 > s.cfg.memCapacity ∧ e = .outOfBounds a .byte)

/-- R51 (derived there): the last `MEM_CAPACITY mod 4` bytes are reached by byte operations alone,
and with fewer than four bytes no step can fetch. -/
def Obligations.TailBytesAreByteOnly : Prop :=
  (∀ (s : State) (a w : Word), s.cfg.memCapacity / 4 * 4 ≤ a.toNat →
    a.toNat < s.cfg.memCapacity → s.readWord a = .error (.outOfBounds a .word) ∧
      s.writeWord a w = .error (.outOfBounds a .word) ∧ ∃ b, s.readByte a = .ok b) ∧
  (∀ s : State, s.cfg.memCapacity < 4 → step s = .fault (.outOfBounds s.pc .word))

/-! ### Encoding -/

/-- R62 to R66, R70, R82: the word and the bytes of every well-formed instruction decode to that
instruction, with every operand. -/
def Obligations.EncodedInstructionDecodesToItself : Prop :=
  ∀ i : Instr, i.wellFormed = true → decodeWord (encode i) = some i ∧
    ∀ rest, decodeBytes (encodeBytes i ++ rest) = .ok (i, rest)

/-- R70: a word is the instruction of a row of the table exactly when it matches the row under its
mask, and it is no instruction exactly when it matches none of the 20 rows. -/
def Obligations.DecoderFollowsTheOpcodeTable : Prop :=
  opcodeTable.length = 20 ∧
  ∀ w : Word, (∀ row ∈ opcodeTable,
      ((decodeWord w).map Instr.mnemonic = some row.mnemonic ↔ w &&& row.mask = row.pattern)) ∧
    (decodeWord w = none ↔ ∀ row ∈ opcodeTable, w &&& row.mask ≠ row.pattern)

/-- R62, R72, R82: a word decodes to an instruction exactly when the instruction is well formed and
the word is its encoding but for the bits it ignores. That those bits are ignored is decision D7
(log entry 9). -/
def Obligations.DecodedExactlyByItsEncodings : Prop :=
  ∀ (w : Word) (i : Instr), decodeWord w = some i ↔
    i.wellFormed = true ∧ w &&& ~~~ignoredBits i.mnemonic = encode i

/-- Words of spec/95_test_vectors.md section 2 and of the rules' examples, one or more for each
family, and three words that are no instruction. -/
def Obligations.SpecWordsDecodeAsListed : Prop :=
  decodeWord 0x00221820 = some (.add 3 1 2) ∧ decodeWord 0x00221821 = some (.addu 3 1 2) ∧
  decodeWord 0x08000010 = some (.j 0x10) ∧ decodeWord 0x0AFFFFFF = some (.j 0x2FFFFFF) ∧
  decodeWord 0x0C000020 = some (.jal 0x20) ∧
  decodeWord 0x1000FFFF = some (.beq 0 0 0xFFFFFFFF) ∧
  decodeWord 0x1C20FFFD = some (.bgtz 1 0xFFFFFFFD) ∧
  decodeWord 0x200101FF = some (.addi 1 0 0x1FF) ∧
  decodeWord 0x2C228000 = some (.sltiu 2 1 0xFFFF8000) ∧
  decodeWord 0x3C01DEAD = some (.lui 1 0xFFFFDEAD) ∧
  decodeWord 0x8C43FFFC = some (.lw 3 2 0xFFFFFFFC) ∧
  decodeWord 0xAC410000 = some (.sw 1 2 0) ∧
  decodeWord 0x00000000 = none ∧ decodeWord 0x00221830 = none ∧ decodeWord 0xFFFFFFFF = none

/-! ### The step -/

/-- R91 to R94: when the four bytes at an aligned program counter decode to an instruction, a step
is the execution of that instruction in that state, and nothing is added around it. -/
def Obligations.StepExecutesTheDecodedInstruction : Prop :=
  ∀ (s : State) (b0 b1 b2 b3 : Byte) (i : Instr), s.pc.toNat % 4 = 0 →
    s.readByte s.pc = .ok b0 → s.readByte (s.pc + 1) = .ok b1 → s.readByte (s.pc + 2) = .ok b2 →
    s.readByte (s.pc + 3) = .ok b3 → decodeBytes [b0, b1, b2, b3] = .ok (i, []) →
    step s = exec i s

/-- R40: the fetch is a word read at `pc`: a fetch past the end raises `OutOfBounds`, a fetch in
range at no multiple of 4 raises `Misaligned`, any other fetch gives the word there. -/
def Obligations.FetchIsAWordReadAtPc : Prop :=
  ∀ s : State, s.fetchWord = s.readWord s.pc ∧
    (s.pc.toNat + 4 > s.cfg.memCapacity → ∃ e, step s = .fault e ∧ e.name = .outOfBounds) ∧
    (s.pc.toNat + 4 ≤ s.cfg.memCapacity → s.pc.toNat % 4 ≠ 0 →
      ∃ e, step s = .fault e ∧ e.name = .misaligned) ∧
    (s.pc.toNat + 4 ≤ s.cfg.memCapacity → s.pc.toNat % 4 = 0 → ∃ w, s.fetchWord = .ok w)

/-- R76, R77: a fetched word that matches no row of the table raises `UnimplementedInstruction` with
its `op` and `funct` fields; so does the zero word that reset memory holds. The `funct` of a word
whose `op` is not 0 is decision D10 (log entry 12). -/
def Obligations.UnlistedWordRaisesUnimplemented : Prop :=
  (∀ (s : State) (w : Word), s.fetchWord = .ok w →
    (∀ row ∈ opcodeTable, w &&& row.mask ≠ row.pattern) →
    ∃ op funct : BitVec 6, step s = .fault (.unimplementedInstruction op funct) ∧
      op.toNat = w.toNat / 2 ^ 26 ∧ funct.toNat = w.toNat % 2 ^ 6) ∧
  (∀ s : State, s.fetchWord = .ok 0 → step s = .fault (.unimplementedInstruction 0 0))

/-- R175, R188 (derived there; order D4 and D11, payloads D10: log entries 7, 12, 19): every error of
a step, and which one when several could apply. -/
def Obligations.StepErrorsInStageOrder : Prop :=
  ∀ (s : State) (e : Fault), step s = .fault e ↔
    (s.pc.toNat + 4 > s.cfg.memCapacity ∧ e = .outOfBounds s.pc .word) ∨
    (s.pc.toNat + 4 ≤ s.cfg.memCapacity ∧ s.pc.toNat % 4 ≠ 0 ∧ e = .misaligned s.pc) ∨
    ∃ w, s.fetchWord = .ok w ∧
      ((decodeWord w = none ∧ e = .unimplementedInstruction (opField w) (functField w)) ∨
       ∃ (rt rs : RegIdx) (imm : Word),
        (decodeWord w = some (.lw rt rs imm) ∨ decodeWord w = some (.sw rt rs imm)) ∧
        (((s.getReg rs + imm).toNat + 4 > s.cfg.memCapacity ∧
            e = .outOfBounds (s.getReg rs + imm) .word) ∨
         ((s.getReg rs + imm).toNat + 4 ≤ s.cfg.memCapacity ∧
            (s.getReg rs + imm).toNat % 4 ≠ 0 ∧ e = .misaligned (s.getReg rs + imm))))

/-- R97: every step of every state ends in a new state or in one of the three errors; none is
refused. -/
def Obligations.StepAlwaysAnswers : Prop :=
  ∀ s : State, (∃ t, step s = .next t) ∨ ∃ e, step s = .fault e

/-- R96, R176, R178 (decision D3: log entry 6): a call of `step()` that returns an error leaves the
whole state, `pc` included, and every further call returns the same error. -/
def Obligations.ErrorLeavesStateAndRepeats : Prop :=
  ∀ (s : State) (e : Fault), (callStep s).2 = .error e →
    (callStep s).1 = s ∧ ∀ n, runSteps (n + 1) s = (s, .error e) ∧
      callStep (runSteps (n + 1) s).1 = (s, .error e)

/-- R5, R15, R17: the invariant: every step keeps the memory canonical and inside its capacity, and
keeps an aligned program counter aligned (R15 is derived there). The capacity's range is decision
D14 (log entry 3). -/
def Obligations.StepKeepsTheInvariant : Prop :=
  ∀ s t : State, step s = .next t →
    (s.wf → t.wf) ∧ (s.pcAligned → t.pcAligned) ∧ (s.Inv → t.Inv)

/-- The invariant holds after reset of every core with a capacity in range and an aligned start
address, and of the core with the default parameters (log entries 2 and 3). -/
def Obligations.ResetMeetsTheInvariant : Prop :=
  (∀ c : Config, c.wf → c.resetPc.toNat % 4 = 0 → (State.resetOf c).Inv) ∧ State.reset.Inv

/-- The invariant holds in every launch state of such a core, whatever the image (R206; log entries
2, 3, 17). -/
def Obligations.LaunchMeetsTheInvariant : Prop :=
  ∀ (c : Config) (image : List (Word × Byte)) (s : State), c.wf → c.resetPc.toNat % 4 = 0 →
    launch c image = .ok s → s.Inv

/-- R15, R172: a run from any state that meets the invariant stays in it, and no fetch of it is
ever misaligned (R15 is derived there; decisions D14, D16, D25: log entries 3, 14, 16). -/
def Obligations.RunNeverFetchesMisaligned : Prop :=
  ∀ (n : Nat) (s : State), s.Inv → (runSteps n s).1.Inv ∧ FetchesAligned (runSteps n s).1

/-- R102 (derived there): what one step can change: at most one general register; the link register
in a `jal` alone; at most one aligned word of memory, at the effective address of a `sw`, in a `sw`
alone; never a general register and memory both; never the build parameters. -/
def Obligations.OneStepChangesAtMostThis : Prop :=
  ∀ s t : State, step s = .next t → t.cfg = s.cfg ∧
    ∃ w i, s.fetchWord = .ok w ∧ decodeWord w = some i ∧
      (∃ d, ∀ r, r ≠ d → t.getReg r = s.getReg r) ∧
      (t.lr ≠ s.lr → i.mnemonic = .jal) ∧
      (SameMemory s t ∨
        SameRegs s t ∧ ∃ rt rs imm, i = .sw rt rs imm ∧
          (effectiveAddress s rs imm).toNat % 4 = 0 ∧
          ∀ b : Word, b.toNat < (effectiveAddress s rs imm).toNat ∨
            (effectiveAddress s rs imm).toNat + 4 ≤ b.toNat → t.readByte b = s.readByte b)

/-- R20: an instruction writes no register but the one in its row, and what it does depends on no
register but those in its row: two states that agree on those registers, on `pc` and on memory meet
the same error or the same effect, whatever the other registers and `LR` hold. -/
def Obligations.InstructionsTouchOnlyTheirRegisters : Prop :=
  (∀ (i : Instr) (s t : State), exec i s = .next t →
    (∀ r, writtenReg i ≠ some r → t.getReg r = s.getReg r) ∧
    (i.mnemonic ≠ .jal → t.lr = s.lr)) ∧
  (∀ (i : Instr) (s s' : State), s'.cfg = s.cfg → SameMemory s s' → s'.pc = s.pc →
    (∀ r ∈ readRegs i, s'.getReg r = s.getReg r) →
    (∀ e, exec i s = .fault e ↔ exec i s' = .fault e) ∧
    ∀ t, exec i s = .next t → ∃ t', exec i s' = .next t' ∧ t'.pc = t.pc ∧ SameMemory t t' ∧
      (∀ d, writtenReg i = some d → t'.getReg d = t.getReg d) ∧
      (i.mnemonic = .jal → t'.lr = t.lr))

/-- R16 (a register of its own by decision D2: log entry 5): no program can observe the link
register: two runs whose starts differ in it alone return the same results, and their states differ
in it alone. -/
def Obligations.LinkRegisterIsNeverObserved : Prop :=
  ∀ (n : Nat) (s : State) (v : Word), (runSteps n (s.setLr v)).2 = (runSteps n s).2 ∧
    ∃ l, (runSteps n (s.setLr v)).1 = (runSteps n s).1.setLr l

/-- R16, R122 (decision D2: log entry 5): the link register is written by `jal`, with the address
after it, and by nothing else; the general registers keep their values in a `jal`, register 31
among them. -/
def Obligations.OnlyJalWritesTheLinkRegister : Prop :=
  ∀ s t : State, step s = .next t → ∀ w, s.fetchWord = .ok w →
    (w.toNat / 2 ^ 26 = 3 → t.lr.toNat = nextAddress s ∧ SameRegs s t) ∧
    (w.toNat / 2 ^ 26 ≠ 3 → t.lr = s.lr)

/-- R46, R48 (decision D18: log entry 25): the word a `sw` stored is the word a load or a fetch at its
address reads from the next step on. -/
def Obligations.StoredWordIsLoadedAndFetched : Prop :=
  ∀ (s t : State) (rt rs : RegIdx) (imm : Word), exec (.sw rt rs imm) s = .next t →
    t.readWord (effectiveAddress s rs imm) = .ok (s.getReg rt) ∧
    (t.setPc (effectiveAddress s rs imm)).fetchWord = .ok (s.getReg rt)

/-- R204, R206 (log entry 17): a word placed where the next step fetches is the instruction that
step executes, and placing it changes the four bytes at `pc` alone. -/
def Obligations.PlacedWordIsExecutedNext : Prop :=
  ∀ (s : State) (w : Word) (i : Instr), s.pc.toNat % 4 = 0 →
    s.pc.toNat + 4 ≤ s.cfg.memCapacity → decodeWord w = some i →
    step (s.withFetchWord 32 w.toNat) = exec i (s.withFetchWord 32 w.toNat) ∧
    (s.withFetchWord 32 w.toNat).fetchWord = .ok w ∧
    SameRegs s (s.withFetchWord 32 w.toNat) ∧ (s.withFetchWord 32 w.toNat).pc = s.pc ∧
    (s.withFetchWord 32 w.toNat).lr = s.lr ∧ (s.withFetchWord 32 w.toNat).cfg = s.cfg ∧
    ∀ b : Word, b.toNat < s.pc.toNat ∨ s.pc.toNat + 4 ≤ b.toNat →
      (s.withFetchWord 32 w.toNat).readByte b = s.readByte b

/-! ### The instructions: encoding, result, completion and frame of each -/

/-- R110: `add` completes for all operands, writes the sum modulo `2^32` and changes nothing else but
`pc`. That bits 10:6 may hold anything is decision D7 (log entry 9). -/
def Obligations.AddWritesTheWrappedSum : Prop :=
  ∀ (s : State) (rd rs rt : RegIdx),
    (∀ p : BitVec 5, decodeWord
      (0#6 ++ regBits rs ++ regBits rt ++ regBits rd ++ p ++ 32#6) = some (.add rd rs rt)) ∧
    ∃ t v, exec (.add rd rs rt) s = .next t ∧
      v.toNat = ((s.getReg rs).toNat + (s.getReg rt).toNat) % 2 ^ 32 ∧ WroteReg s t rd v

/-- R111: `addu`, as `add`. Bits 10:6: decision D7 (log entry 9). -/
def Obligations.AdduWritesTheWrappedSum : Prop :=
  ∀ (s : State) (rd rs rt : RegIdx),
    (∀ p : BitVec 5, decodeWord
      (0#6 ++ regBits rs ++ regBits rt ++ regBits rd ++ p ++ 33#6) = some (.addu rd rs rt)) ∧
    ∃ t v, exec (.addu rd rs rt) s = .next t ∧
      v.toNat = ((s.getReg rs).toNat + (s.getReg rt).toNat) % 2 ^ 32 ∧ WroteReg s t rd v

/-- R112: `sub` completes for all operands and writes `rs` minus `rt` modulo `2^32`. Bits 10:6:
decision D7 (log entry 9). -/
def Obligations.SubWritesTheWrappedDifference : Prop :=
  ∀ (s : State) (rd rs rt : RegIdx),
    (∀ p : BitVec 5, decodeWord
      (0#6 ++ regBits rs ++ regBits rt ++ regBits rd ++ p ++ 34#6) = some (.sub rd rs rt)) ∧
    ∃ t v, exec (.sub rd rs rt) s = .next t ∧
      (v.toNat : Int) = ((s.getReg rs).toNat - (s.getReg rt).toNat : Int) % 2 ^ 32 ∧
      WroteReg s t rd v

/-- R113: `subu`, as `sub`. Bits 10:6: decision D7 (log entry 9). -/
def Obligations.SubuWritesTheWrappedDifference : Prop :=
  ∀ (s : State) (rd rs rt : RegIdx),
    (∀ p : BitVec 5, decodeWord
      (0#6 ++ regBits rs ++ regBits rt ++ regBits rd ++ p ++ 35#6) = some (.subu rd rs rt)) ∧
    ∃ t v, exec (.subu rd rs rt) s = .next t ∧
      (v.toNat : Int) = ((s.getReg rs).toNat - (s.getReg rt).toNat : Int) % 2 ^ 32 ∧
      WroteReg s t rd v

/-- R120, R121: `j` goes to its target inside the region of `npc` and changes nothing but `pc`. That
the region is that of the incremented PC is decision D6 (log entry 8). -/
def Obligations.JumpGoesToItsTarget : Prop :=
  ∀ (s : State) (target : BitVec 26), decodeWord (2#6 ++ target) = some (.j target) ∧
    ∃ t, exec (.j target) s = .next t ∧ WentTo s t (jumpAddress s target)

/-- R120, R122: `jal` goes where `j` goes and writes `npc` to the link register; every general
register, 31 among them, every byte of memory and the parameters keep their values. The separate
link register is decision D2, the region decision D6 (log entries 5 and 8). -/
def Obligations.JalLinksAndJumps : Prop :=
  ∀ (s : State) (target : BitVec 26), decodeWord (3#6 ++ target) = some (.jal target) ∧
    ∃ t, exec (.jal target) s = .next t ∧ t.lr.toNat = nextAddress s ∧
      t.pc.toNat = jumpAddress s target ∧ SameRegs s t ∧ SameMemory s t ∧ t.cfg = s.cfg

/-- R130, R131: `beq` branches when the two registers hold the same bits and changes nothing but
`pc`. The wrap of the destination is decision D5 (log entry 4). -/
def Obligations.BeqBranchesWhenEqual : Prop :=
  ∀ (s : State) (rs rt : RegIdx) (imm16 : BitVec 16),
    decodeWord (4#6 ++ regBits rs ++ regBits rt ++ imm16) = some (.beq rs rt (sext16 imm16)) ∧
    ∃ t, exec (.beq rs rt (sext16 imm16)) s = .next t ∧
      (s.getReg rs = s.getReg rt → WentTo s t (takenAddress s imm16)) ∧
      (s.getReg rs ≠ s.getReg rt → WentTo s t (nextAddress s))

/-- R130, R132: `bne` branches when the two registers differ. The wrap: decision D5 (log entry 4). -/
def Obligations.BneBranchesWhenDifferent : Prop :=
  ∀ (s : State) (rs rt : RegIdx) (imm16 : BitVec 16),
    decodeWord (5#6 ++ regBits rs ++ regBits rt ++ imm16) = some (.bne rs rt (sext16 imm16)) ∧
    ∃ t, exec (.bne rs rt (sext16 imm16)) s = .next t ∧
      (s.getReg rs ≠ s.getReg rt → WentTo s t (takenAddress s imm16)) ∧
      (s.getReg rs = s.getReg rt → WentTo s t (nextAddress s))

/-- R130, R133: `blez` branches when the register, read as signed, is at most zero. That the `rt`
field may hold anything is decision D7, the wrap decision D5 (log entries 9 and 4). -/
def Obligations.BlezBranchesWhenAtMostZero : Prop :=
  ∀ (s : State) (rs : RegIdx) (imm16 : BitVec 16),
    (∀ p : BitVec 5, decodeWord (6#6 ++ regBits rs ++ p ++ imm16) =
      some (.blez rs (sext16 imm16))) ∧
    ∃ t, exec (.blez rs (sext16 imm16)) s = .next t ∧
      (signed (s.getReg rs) ≤ 0 → WentTo s t (takenAddress s imm16)) ∧
      (signed (s.getReg rs) > 0 → WentTo s t (nextAddress s))

/-- R130, R134: `bgtz` branches when the register, read as signed, is above zero. The `rt` field:
decision D7; the wrap: decision D5 (log entries 9 and 4). -/
def Obligations.BgtzBranchesWhenAboveZero : Prop :=
  ∀ (s : State) (rs : RegIdx) (imm16 : BitVec 16),
    (∀ p : BitVec 5, decodeWord (7#6 ++ regBits rs ++ p ++ imm16) =
      some (.bgtz rs (sext16 imm16))) ∧
    ∃ t, exec (.bgtz rs (sext16 imm16)) s = .next t ∧
      (signed (s.getReg rs) > 0 → WentTo s t (takenAddress s imm16)) ∧
      (signed (s.getReg rs) ≤ 0 → WentTo s t (nextAddress s))

/-- R141: `addi` completes for all operands and writes the sum of the register and the signed
immediate modulo `2^32`. That it wraps and never raises is decision D9 (log entry 11). -/
def Obligations.AddiAddsTheSignedImmediate : Prop :=
  ∀ (s : State) (rt rs : RegIdx) (imm16 : BitVec 16),
    decodeWord (8#6 ++ regBits rs ++ regBits rt ++ imm16) = some (.addi rt rs (sext16 imm16)) ∧
    ∃ t v, exec (.addi rt rs (sext16 imm16)) s = .next t ∧
      (v.toNat : Int) = ((s.getReg rs).toNat + signed16 imm16 : Int) % 2 ^ 32 ∧ WroteReg s t rt v

/-- R142: `addiu` adds the sign-extended immediate too (decision D8: log entry 10). -/
def Obligations.AddiuAddsTheSignedImmediate : Prop :=
  ∀ (s : State) (rt rs : RegIdx) (imm16 : BitVec 16),
    decodeWord (9#6 ++ regBits rs ++ regBits rt ++ imm16) = some (.addiu rt rs (sext16 imm16)) ∧
    ∃ t v, exec (.addiu rt rs (sext16 imm16)) s = .next t ∧
      (v.toNat : Int) = ((s.getReg rs).toNat + signed16 imm16 : Int) % 2 ^ 32 ∧ WroteReg s t rt v

/-- R143: `slti` writes 1 if the register is below the immediate, both read as signed, else 0. -/
def Obligations.SltiComparesSigned : Prop :=
  ∀ (s : State) (rt rs : RegIdx) (imm16 : BitVec 16),
    decodeWord (10#6 ++ regBits rs ++ regBits rt ++ imm16) = some (.slti rt rs (sext16 imm16)) ∧
    ∃ t, exec (.slti rt rs (sext16 imm16)) s = .next t ∧
      (signed (s.getReg rs) < signed16 imm16 → WroteReg s t rt 1) ∧
      (¬ signed (s.getReg rs) < signed16 imm16 → WroteReg s t rt 0)

/-- R144: `sltiu` writes 1 if the register is below the sign-extended immediate (decision D8: log
entry 10), both read as unsigned 32-bit numbers, else 0. -/
def Obligations.SltiuComparesUnsigned : Prop :=
  ∀ (s : State) (rt rs : RegIdx) (imm16 : BitVec 16),
    decodeWord (11#6 ++ regBits rs ++ regBits rt ++ imm16) = some (.sltiu rt rs (sext16 imm16)) ∧
    ∃ t, exec (.sltiu rt rs (sext16 imm16)) s = .next t ∧
      (((s.getReg rs).toNat : Int) < signed16 imm16 % 2 ^ 32 → WroteReg s t rt 1) ∧
      (¬ ((s.getReg rs).toNat : Int) < signed16 imm16 % 2 ^ 32 → WroteReg s t rt 0)

/-- R151: `andi`, bit by bit with the zero-extended immediate: bit `k` of the immediate is bit `k` of
the field below 16 and zero from 16 up. -/
def Obligations.AndiMasksWithZeroExtension : Prop :=
  ∀ (s : State) (rt rs : RegIdx) (imm16 : BitVec 16),
    decodeWord (12#6 ++ regBits rs ++ regBits rt ++ imm16) = some (.andi rt rs (sext16 imm16)) ∧
    ∃ t v, exec (.andi rt rs (sext16 imm16)) s = .next t ∧ WroteReg s t rt v ∧
      ∀ k < 32, v.getLsbD k = ((s.getReg rs).getLsbD k && (decide (k < 16) && imm16.getLsbD k))

/-- R152: `ori`, bit by bit with the zero-extended immediate. -/
def Obligations.OriSetsWithZeroExtension : Prop :=
  ∀ (s : State) (rt rs : RegIdx) (imm16 : BitVec 16),
    decodeWord (13#6 ++ regBits rs ++ regBits rt ++ imm16) = some (.ori rt rs (sext16 imm16)) ∧
    ∃ t v, exec (.ori rt rs (sext16 imm16)) s = .next t ∧ WroteReg s t rt v ∧
      ∀ k < 32, v.getLsbD k = ((s.getReg rs).getLsbD k || (decide (k < 16) && imm16.getLsbD k))

/-- R153: `xori`, bit by bit with the zero-extended immediate. -/
def Obligations.XoriFlipsWithZeroExtension : Prop :=
  ∀ (s : State) (rt rs : RegIdx) (imm16 : BitVec 16),
    decodeWord (14#6 ++ regBits rs ++ regBits rt ++ imm16) = some (.xori rt rs (sext16 imm16)) ∧
    ∃ t v, exec (.xori rt rs (sext16 imm16)) s = .next t ∧ WroteReg s t rt v ∧
      ∀ k < 32, v.getLsbD k = ((s.getReg rs).getLsbD k ^^ (decide (k < 16) && imm16.getLsbD k))

/-- R154: `lui` writes the immediate to the upper half and zero to the lower. That the `rs` field may
hold anything is decision D7 (log entry 9). -/
def Obligations.LuiFillsTheUpperHalf : Prop :=
  ∀ (s : State) (rt : RegIdx) (imm16 : BitVec 16),
    (∀ p : BitVec 5, decodeWord (15#6 ++ p ++ regBits rt ++ imm16) =
      some (.lui rt (sext16 imm16))) ∧
    ∃ t v, exec (.lui rt (sext16 imm16)) s = .next t ∧ v.toNat = imm16.toNat * 2 ^ 16 ∧
      WroteReg s t rt v

/-- R152, R154: `lui` and then `ori` on one register build any 32-bit constant in it. -/
def Obligations.LuiThenOriBuildsAnyConstant : Prop :=
  ∀ (s : State) (rt : RegIdx) (hi lo : BitVec 16), rt ≠ 0 →
    ∃ t u, exec (.lui rt (sext16 hi)) s = .next t ∧ exec (.ori rt rt (sext16 lo)) t = .next u ∧
      (u.getReg rt).toNat = hi.toNat * 2 ^ 16 + lo.toNat ∧ ∀ r, r ≠ rt → u.getReg r = s.getReg r

/-- R160, R162: `lw` from an address in bounds and aligned completes and loads the big-endian word
there; otherwise it raises. The address is the content of `rs` plus the signed immediate modulo
`2^32` (decision D5); bounds are checked before alignment (D4), the errors carry the address (D10),
and the access is made whatever `rt` is (D24): log entries 4, 7, 12, 15. -/
def Obligations.LwLoadsTheWord : Prop :=
  ∀ (s : State) (rt rs : RegIdx) (imm16 : BitVec 16) (a : Word),
    effectiveAddress s rs (sext16 imm16) = a →
    decodeWord (35#6 ++ regBits rs ++ regBits rt ++ imm16) = some (.lw rt rs (sext16 imm16)) ∧
    (a.toNat : Int) = ((s.getReg rs).toNat + signed16 imm16 : Int) % 2 ^ 32 ∧
    (a.toNat + 4 ≤ s.cfg.memCapacity → a.toNat % 4 = 0 →
      ∃ (t : State) (v : Word) (b0 b1 b2 b3 : Byte),
        exec (.lw rt rs (sext16 imm16)) s = .next t ∧ WroteReg s t rt v ∧
        s.readByte a = .ok b0 ∧ s.readByte (a + 1) = .ok b1 ∧ s.readByte (a + 2) = .ok b2 ∧
        s.readByte (a + 3) = .ok b3 ∧
        v.toNat = b0.toNat * 2 ^ 24 + b1.toNat * 2 ^ 16 + b2.toNat * 2 ^ 8 + b3.toNat) ∧
    (a.toNat + 4 > s.cfg.memCapacity →
      exec (.lw rt rs (sext16 imm16)) s = .fault (.outOfBounds a .word)) ∧
    (a.toNat + 4 ≤ s.cfg.memCapacity → a.toNat % 4 ≠ 0 →
      exec (.lw rt rs (sext16 imm16)) s = .fault (.misaligned a))

/-- R161, R162: `sw` to an address in bounds and aligned completes, stores the register's four bytes
most significant first and leaves every other byte and every register; otherwise it raises.
Decisions D5, D4, D10: log entries 4, 7, 12. -/
def Obligations.SwStoresTheWord : Prop :=
  ∀ (s : State) (rt rs : RegIdx) (imm16 : BitVec 16) (a : Word),
    effectiveAddress s rs (sext16 imm16) = a →
    decodeWord (43#6 ++ regBits rs ++ regBits rt ++ imm16) = some (.sw rt rs (sext16 imm16)) ∧
    (a.toNat : Int) = ((s.getReg rs).toNat + signed16 imm16 : Int) % 2 ^ 32 ∧
    (a.toNat + 4 ≤ s.cfg.memCapacity → a.toNat % 4 = 0 →
      ∃ t, exec (.sw rt rs (sext16 imm16)) s = .next t ∧ SameRegs s t ∧
        t.pc.toNat = nextAddress s ∧ t.lr = s.lr ∧ t.cfg = s.cfg ∧
        t.readByte a = .ok ((s.getReg rt).extractLsb' 24 8) ∧
        t.readByte (a + 1) = .ok ((s.getReg rt).extractLsb' 16 8) ∧
        t.readByte (a + 2) = .ok ((s.getReg rt).extractLsb' 8 8) ∧
        t.readByte (a + 3) = .ok ((s.getReg rt).extractLsb' 0 8) ∧
        ∀ b : Word, b.toNat < a.toNat ∨ a.toNat + 4 ≤ b.toNat → t.readByte b = s.readByte b) ∧
    (a.toNat + 4 > s.cfg.memCapacity →
      exec (.sw rt rs (sext16 imm16)) s = .fault (.outOfBounds a .word)) ∧
    (a.toNat + 4 ≤ s.cfg.memCapacity → a.toNat % 4 ≠ 0 →
      exec (.sw rt rs (sext16 imm16)) s = .fault (.misaligned a))
end

