-- ==== Sys2Proof/Laws/Decode.lean ====
section
/-! SUPPORT. The fields of an encoded word, and the sign-extended immediate. -/

namespace Sys2Proof

/-! ### Fields of the three formats (R63 to R65) -/

section Fields

variable (op funct : BitVec 6) (rd rs rt : RegIdx) (imm16 : BitVec 16) (target : BitVec 26)

/-- A register index is its own five bits. -/
theorem toFin_regBits (r : RegIdx) : (regBits r).toFin = r := rfl

theorem opField_encodeR : opField (encodeR funct rd rs rt) = 0 := by
  apply BitVec.eq_of_getLsbD_eq
  intro i hi
  interval_cases i <;>
      simp only [opField, encodeR, BitVec.getLsbD_extractLsb', BitVec.getLsbD_append] <;> simp

theorem functField_encodeR : functField (encodeR funct rd rs rt) = funct := by
  apply BitVec.eq_of_getLsbD_eq
  intro i hi
  interval_cases i <;>
      simp only [functField, encodeR, BitVec.getLsbD_extractLsb', BitVec.getLsbD_append] <;> simp

theorem regField_encodeR_rs : regField (encodeR funct rd rs rt) 21 = rs := by
  have : (encodeR funct rd rs rt).extractLsb' 21 5 = regBits rs := by
    apply BitVec.eq_of_getLsbD_eq
    intro i hi
    interval_cases i <;>
      simp only [encodeR, BitVec.getLsbD_extractLsb', BitVec.getLsbD_append] <;> simp
  rw [regField, this]; rfl

theorem regField_encodeR_rt : regField (encodeR funct rd rs rt) 16 = rt := by
  have : (encodeR funct rd rs rt).extractLsb' 16 5 = regBits rt := by
    apply BitVec.eq_of_getLsbD_eq
    intro i hi
    interval_cases i <;>
      simp only [encodeR, BitVec.getLsbD_extractLsb', BitVec.getLsbD_append] <;> simp
  rw [regField, this]; rfl

theorem regField_encodeR_rd : regField (encodeR funct rd rs rt) 11 = rd := by
  have : (encodeR funct rd rs rt).extractLsb' 11 5 = regBits rd := by
    apply BitVec.eq_of_getLsbD_eq
    intro i hi
    interval_cases i <;>
      simp only [encodeR, BitVec.getLsbD_extractLsb', BitVec.getLsbD_append] <;> simp
  rw [regField, this]; rfl

theorem opField_encodeI : opField (encodeI op rs rt imm16) = op := by
  apply BitVec.eq_of_getLsbD_eq
  intro i hi
  interval_cases i <;>
      simp only [opField, encodeI, BitVec.getLsbD_extractLsb', BitVec.getLsbD_append] <;> simp

theorem regField_encodeI_rs : regField (encodeI op rs rt imm16) 21 = rs := by
  have : (encodeI op rs rt imm16).extractLsb' 21 5 = regBits rs := by
    apply BitVec.eq_of_getLsbD_eq
    intro i hi
    interval_cases i <;>
      simp only [encodeI, BitVec.getLsbD_extractLsb', BitVec.getLsbD_append] <;> simp
  rw [regField, this]; rfl

theorem regField_encodeI_rt : regField (encodeI op rs rt imm16) 16 = rt := by
  have : (encodeI op rs rt imm16).extractLsb' 16 5 = regBits rt := by
    apply BitVec.eq_of_getLsbD_eq
    intro i hi
    interval_cases i <;>
      simp only [encodeI, BitVec.getLsbD_extractLsb', BitVec.getLsbD_append] <;> simp
  rw [regField, this]; rfl

theorem imm16Field_encodeI : imm16Field (encodeI op rs rt imm16) = imm16 := by
  apply BitVec.eq_of_getLsbD_eq
  intro i hi
  simp only [imm16Field, encodeI, BitVec.getLsbD_extractLsb', BitVec.getLsbD_append]
  simp [hi]

theorem opField_encodeJ : opField (encodeJ op target) = op := by
  apply BitVec.eq_of_getLsbD_eq
  intro i hi
  simp only [opField, encodeJ, BitVec.getLsbD_extractLsb', BitVec.getLsbD_append]
  simp [hi]

theorem targetField_encodeJ : targetField (encodeJ op target) = target := by
  apply BitVec.eq_of_getLsbD_eq
  intro i hi
  simp only [targetField, encodeJ, BitVec.getLsbD_extractLsb', BitVec.getLsbD_append]
  simp [hi]

/-- Every field of an I-type word (R64). -/
theorem splitFields_encodeI : splitFields (encodeI op rs rt imm16) =
    { op := op, funct := functField (encodeI op rs rt imm16), rs := rs, rt := rt,
      rd := regField (encodeI op rs rt imm16) 11, imm16 := imm16, imm := sext16 imm16,
      target := targetField (encodeI op rs rt imm16) } := by
  simp only [splitFields, opField_encodeI, regField_encodeI_rs, regField_encodeI_rt,
    imm16Field_encodeI]

/-- Every field of a J-type word (R65). -/
theorem splitFields_encodeJ : splitFields (encodeJ op target) =
    { op := op, funct := functField (encodeJ op target),
      rs := regField (encodeJ op target) 21, rt := regField (encodeJ op target) 16,
      rd := regField (encodeJ op target) 11, imm16 := imm16Field (encodeJ op target),
      imm := sext16 (imm16Field (encodeJ op target)), target := target } := by
  simp only [splitFields, opField_encodeJ, targetField_encodeJ]

end Fields

/-! ### Immediates (R66) -/

theorem getLsbD_sext16 (v : BitVec 16) (i : Nat) (hi : i < 32) :
    (sext16 v).getLsbD i = if i < 16 then v.getLsbD i else v.getLsbD 15 := by
  simp only [sext16, BitVec.getLsbD_signExtend, hi, decide_true, Bool.true_and,
    BitVec.msb_eq_getLsbD_last]

/-- The low half of a sign-extended immediate is the field itself. -/
theorem immBits_sext16 (v : BitVec 16) : immBits (sext16 v) = v := by
  apply BitVec.eq_of_getLsbD_eq
  intro i hi
  simp only [immBits, BitVec.getLsbD_extractLsb', Nat.zero_add]
  rw [getLsbD_sext16 _ _ (by omega)]
  simp [hi]

/-- A well-formed immediate is the sign extension of its low half. -/
theorem sext16_immBits {imm : Word} (h : isSignExtended imm = true) :
    sext16 (immBits imm) = imm := by
  have hb : ∀ k, k < 17 → imm.getLsbD (15 + k) = imm.getLsbD 15 := by
    intro k hk
    have key : ∀ k, k < 17 →
        imm.getLsbD (15 + k) = (imm.extractLsb' 15 17).getLsbD k := by
      intro k hk; simp [hk]
    rw [key k hk, show imm.getLsbD 15 = _ from key 0 (by omega)]
    rcases (by simpa [isSignExtended] using h :
      imm.extractLsb' 15 17 = 0#17 ∨ imm.extractLsb' 15 17 = BitVec.allOnes 17) with e | e <;>
      (rw [e]; simp only [BitVec.getLsbD_zero, BitVec.getLsbD_allOnes, hk]; try decide)
  apply BitVec.eq_of_getLsbD_eq
  intro i hi
  rw [getLsbD_sext16 _ _ hi]
  split
  · simp [immBits, *]
  · have := hb (i - 15) (by omega)
    rw [show 15 + (i - 15) = i by omega] at this
    simp [immBits, this]

/-- Every sign extension is well formed. -/
theorem isSignExtended_sext16 (v : BitVec 16) : isSignExtended (sext16 v) = true := by
  have hb : ∀ k, k < 17 → ((sext16 v).extractLsb' 15 17).getLsbD k = v.getLsbD 15 := by
    intro k hk
    rw [BitVec.getLsbD_extractLsb', getLsbD_sext16 _ _ (by omega)]
    split
    · have : k = 0 := by omega
      simp [this]
    · simp [hk]
  have : (sext16 v).extractLsb' 15 17 = 0#17 ∨
      (sext16 v).extractLsb' 15 17 = BitVec.allOnes 17 := by
    cases h : v.getLsbD 15
    · exact .inl (BitVec.eq_of_getLsbD_eq fun i hi => by rw [hb i hi, h, BitVec.getLsbD_zero])
    · exact .inr (BitVec.eq_of_getLsbD_eq fun i hi => by
        rw [hb i hi, h, BitVec.getLsbD_allOnes, decide_eq_true hi])
  simpa [isSignExtended] using this

/-- Sign extension keeps the signed value (00_scope.md, GLOSSARY "sign extension"). -/
theorem signed_sext16 (v : BitVec 16) : signed (sext16 v) = signed16 v := by
  have h32 : ∀ w : Word, signed w = w.toInt := by
    intro w; simp only [signed, BitVec.toInt_eq_toNat_cond]; split <;> split <;> omega
  have h16 : ∀ w : BitVec 16, signed16 w = w.toInt := by
    intro w; simp only [signed16, BitVec.toInt_eq_toNat_cond]; split <;> split <;> omega
  rw [h32, h16, sext16, BitVec.toInt_signExtend_of_le (by omega)]

/-- The sign-extended immediate as an unsigned number (00_scope.md section 5). -/
theorem toNat_sext16 (v : BitVec 16) : ((sext16 v).toNat : Int) = signed16 v % 2 ^ 32 := by
  have h := signed_sext16 v
  have := (sext16 v).isLt
  simp only [signed] at h
  split at h <;> omega

end Sys2Proof
end

