-- ==== Sys2Proof/Laws/State.lean ====
section
/-! SUPPORT. The fields of the state after each update of it, the reset state's fields, and the
general registers after a write. -/

namespace Sys2Proof.Machine

variable (s : State) (r d : RegIdx) (v t : Word) (m : Memory) (c : Config)

@[simp] theorem State.setPc_cfg : (s.setPc t).cfg = s.cfg := rfl
@[simp] theorem State.setPc_gpr : (s.setPc t).gpr = s.gpr := rfl
@[simp] theorem State.setPc_pc : (s.setPc t).pc = t := rfl
@[simp] theorem State.setPc_lr : (s.setPc t).lr = s.lr := rfl
@[simp] theorem State.setPc_mem : (s.setPc t).mem = s.mem := rfl

@[simp] theorem State.setLr_cfg : (s.setLr v).cfg = s.cfg := rfl
@[simp] theorem State.setLr_gpr : (s.setLr v).gpr = s.gpr := rfl
@[simp] theorem State.setLr_pc : (s.setLr v).pc = s.pc := rfl
@[simp] theorem State.setLr_lr : (s.setLr v).lr = v := rfl
@[simp] theorem State.setLr_mem : (s.setLr v).mem = s.mem := rfl

@[simp] theorem State.setMem_cfg : (s.setMem m).cfg = s.cfg := rfl
@[simp] theorem State.setMem_gpr : (s.setMem m).gpr = s.gpr := rfl
@[simp] theorem State.setMem_pc : (s.setMem m).pc = s.pc := rfl
@[simp] theorem State.setMem_lr : (s.setMem m).lr = s.lr := rfl
@[simp] theorem State.setMem_mem : (s.setMem m).mem = m := rfl

@[simp] theorem State.setReg_cfg : (s.setReg d v).cfg = s.cfg := by
  unfold State.setReg; split <;> rfl
@[simp] theorem State.setReg_pc : (s.setReg d v).pc = s.pc := by
  unfold State.setReg; split <;> rfl
@[simp] theorem State.setReg_lr : (s.setReg d v).lr = s.lr := by
  unfold State.setReg; split <;> rfl
@[simp] theorem State.setReg_mem : (s.setReg d v).mem = s.mem := by
  unfold State.setReg; split <;> rfl

@[simp] theorem State.resetOf_cfg : (State.resetOf c).cfg = c := rfl
@[simp] theorem State.resetOf_pc : (State.resetOf c).pc = c.resetPc := rfl
@[simp] theorem State.resetOf_lr : (State.resetOf c).lr = 0 := rfl
@[simp] theorem State.resetOf_mem : (State.resetOf c).mem = [] := rfl

@[simp] theorem State.npc_setLr : (s.setLr v).npc = s.npc := rfl
@[simp] theorem State.npc_setMem : (s.setMem m).npc = s.npc := rfl
@[simp] theorem State.npc_setReg : (s.setReg d v).npc = s.npc := by simp [State.npc]

@[simp] theorem State.getReg_setPc : (s.setPc t).getReg r = s.getReg r := rfl
@[simp] theorem State.getReg_setLr : (s.setLr v).getReg r = s.getReg r := rfl
@[simp] theorem State.getReg_setMem : (s.setMem m).getReg r = s.getReg r := rfl

/-- A write is read back from its own register unless that is register 0, and from no other. -/
theorem State.getReg_setReg :
    (s.setReg d v).getReg r = if r = d ∧ d ≠ 0 then v else s.getReg r := by
  by_cases hd : d.val = 0
  · have : d = 0 := Fin.ext hd
    simp [State.setReg, this]
  · have hd0 : d ≠ 0 := fun h => hd (by simp [h])
    by_cases hr : r.val = 0
    · have : r ≠ d := fun h => hd (h ▸ hr)
      simp [State.getReg, hr, this]
    · simp only [State.setReg, State.getReg, hd, hr, dite_false, Vector.getElem_set]
      by_cases h : r = d
      · subst h; simp [hd0]
      · have : d.val - 1 ≠ r.val - 1 := fun e => h (Fin.ext (by omega))
        simp [h, this]

theorem State.getReg_setReg_ne (h : r ≠ d) : (s.setReg d v).getReg r = s.getReg r := by
  simp [State.getReg_setReg, h]

/-! Updates of different fields commute; of two updates of `pc` the later stands. -/

theorem State.setPc_setPc (t' : Word) : (s.setPc t).setPc t' = s.setPc t' := rfl

theorem State.setReg_setPc : (s.setPc t).setReg d v = (s.setReg d v).setPc t := by
  unfold State.setReg; split <;> rfl

theorem State.setReg_setLr : (s.setLr t).setReg d v = (s.setReg d v).setLr t := by
  unfold State.setReg; split <;> rfl

end Sys2Proof.Machine
end

