-- ==== Sys2Proof/Laws/Memory.lean ====
section
/-! SUPPORT. The memory array: a read after a write, the canonical form, and words as their four
bytes. -/

namespace Sys2Proof.Machine

/-! ### Words and their bytes -/

theorem wordOfBytes_byteOfWord (v : Word) :
    wordOfBytes (byteOfWord v 0) (byteOfWord v 1) (byteOfWord v 2) (byteOfWord v 3) = v := by
  apply BitVec.eq_of_getLsbD_eq
  intro i hi
  simp only [wordOfBytes, byteOfWord, BitVec.getLsbD_append, BitVec.getLsbD_extractLsb']
  split
  · simp [*]
  · split
    · have : i - 8 < 8 := by omega
      simp only [this, decide_true, Bool.true_and]; congr 1; omega
    · split
      · have : i - 8 - 8 < 8 := by omega
        simp only [this, decide_true, Bool.true_and]; congr 1; omega
      · have : i - 8 - 8 - 8 < 8 := by omega
        simp only [this, decide_true, Bool.true_and]; congr 1; omega

/-- The value of a word is that of its four bytes, the first the most significant (R33). -/
theorem toNat_wordOfBytes (b0 b1 b2 b3 : Byte) :
    (wordOfBytes b0 b1 b2 b3).toNat =
      b0.toNat * 2 ^ 24 + b1.toNat * 2 ^ 16 + b2.toNat * 2 ^ 8 + b3.toNat := by
  have key : ∀ {n : Nat} (a : BitVec n) (b : Byte), (a ++ b).toNat = a.toNat * 2 ^ 8 + b.toNat := by
    intro n a b
    rw [BitVec.toNat_append, Nat.shiftLeft_eq, Nat.mul_comm, ← Nat.two_pow_add_eq_or_of_lt b.isLt]
  simp only [wordOfBytes, key]
  omega

/-! ### The array -/

@[simp] theorem Memory.get_nil (a : Nat) : Memory.get [] a = Memory.fill := rfl

theorem Memory.get_eq_fill {m : Memory} {a : Nat} (h : ∀ c ∈ m, c.1 ≠ a) :
    m.get a = Memory.fill := by
  induction m with
  | nil => rfl
  | cons c m ih =>
    obtain ⟨k, b⟩ := c
    have hk : k ≠ a := h (k, b) (by simp)
    simp only [Memory.get, hk, if_false]
    exact ih fun c hc => h c (by simp [hc])

theorem Memory.get_erase_self (m : Memory) (a : Nat) : (m.erase a).get a = Memory.fill :=
  Memory.get_eq_fill (by simp [Memory.erase])

theorem Memory.get_erase_ne (m : Memory) {a b : Nat} (h : b ≠ a) :
    (m.erase a).get b = m.get b := by
  induction m with
  | nil => rfl
  | cons c m ih =>
    obtain ⟨k, x⟩ := c
    by_cases hk : k = a
    · subst hk
      have : k ≠ b := fun e => h e.symm
      simpa [Memory.erase, Memory.get, this] using ih
    · simp only [Memory.erase, ne_eq, hk, not_false_eq_true, bne_iff_ne, List.filter_cons_of_pos,
        Memory.get]
      split
      · rfl
      · exact ih

theorem Memory.get_insert_ne (m : Memory) {a b : Nat} (v : Byte) (h : b ≠ a) :
    (Memory.insert m a v).get b = m.get b := by
  have hab : a ≠ b := fun e => h e.symm
  induction m with
  | nil => simp [Memory.insert, Memory.get, hab]
  | cons c m ih =>
    obtain ⟨k, x⟩ := c
    simp only [Memory.insert]
    split
    · simp [Memory.get, hab]
    · simp only [Memory.get]
      split
      · rfl
      · exact ih

theorem Memory.get_insert_self {m : Memory} {a : Nat} (v : Byte) (h : ∀ c ∈ m, c.1 ≠ a) :
    (Memory.insert m a v).get a = v := by
  induction m with
  | nil => simp [Memory.insert, Memory.get]
  | cons c m ih =>
    obtain ⟨k, x⟩ := c
    have hk : k ≠ a := h (k, x) (by simp)
    simp only [Memory.insert]
    split
    · simp [Memory.get]
    · simp only [Memory.get, hk, if_false]
      exact ih fun c hc => h c (by simp [hc])

/-- A byte written is read back. -/
theorem Memory.get_set_self (m : Memory) (a : Nat) (v : Byte) : (m.set a v).get a = v := by
  unfold Memory.set
  split
  · rename_i h; rw [Memory.get_erase_self, h]
  · exact Memory.get_insert_self v (by simp [Memory.erase])

/-- A write leaves every other byte alone. -/
theorem Memory.get_set_ne (m : Memory) {a b : Nat} (v : Byte) (h : b ≠ a) :
    (m.set a v).get b = m.get b := by
  unfold Memory.set
  split
  · exact Memory.get_erase_ne m h
  · rw [Memory.get_insert_ne _ v h, Memory.get_erase_ne m h]

/-! ### The canonical form -/

theorem Memory.wf_nil (cap : Nat) : Memory.wf cap [] := ⟨.nil, by simp⟩

theorem Memory.wf_erase {cap : Nat} {m : Memory} (h : m.wf cap) (a : Nat) : (m.erase a).wf cap :=
  ⟨h.1.filter _, fun c hc => h.2 c (List.mem_of_mem_filter hc)⟩

theorem Memory.mem_insert {m : Memory} {a : Nat} {v : Byte} {c : Host.Cell}
    (h : c ∈ Memory.insert m a v) : c = (a, v) ∨ c ∈ m := by
  induction m with
  | nil => exact .inl (by simpa [Memory.insert] using h)
  | cons d m ih =>
    obtain ⟨k, x⟩ := d
    simp only [Memory.insert] at h
    split at h
    · simpa using h
    · rcases List.mem_cons.1 h with rfl | h
      · simp
      · rcases ih h with rfl | h <;> simp [*]

theorem Memory.wf_insert {cap : Nat} {m : Memory} {a : Nat} {v : Byte} (h : m.wf cap)
    (ha : ∀ c ∈ m, c.1 ≠ a) (hv : v ≠ Memory.fill) (hc : a < cap) :
    (Memory.insert m a v).wf cap := by
  refine ⟨?_, fun c hm => ?_⟩
  · induction m with
    | nil => simp [Memory.insert]
    | cons d m ih =>
      obtain ⟨k, x⟩ := d
      obtain ⟨hp, hb⟩ := h
      rw [List.pairwise_cons] at hp
      have hk : k ≠ a := ha (k, x) (by simp)
      have htail : Memory.wf cap m := ⟨hp.2, fun c hc => hb c (by simp [hc])⟩
      simp only [Memory.insert]
      split
      · rename_i hlt
        refine List.pairwise_cons.2 ⟨fun c hc => ?_, List.pairwise_cons.2 hp⟩
        rcases List.mem_cons.1 hc with rfl | hc
        · exact hlt
        · exact Nat.lt_trans hlt (hp.1 c hc)
      · refine List.pairwise_cons.2 ⟨fun c hc => ?_, ih htail fun c hc => ha c (by simp [hc])⟩
        rcases Memory.mem_insert hc with rfl | hc
        · simp only; omega
        · exact hp.1 c hc
  · rcases Memory.mem_insert hm with rfl | hm
    · exact ⟨hv, hc⟩
    · exact h.2 c hm

/-- A write inside the array keeps the canonical form. -/
theorem Memory.wf_set {cap : Nat} {m : Memory} (h : m.wf cap) {a : Nat} (v : Byte) (ha : a < cap) :
    (m.set a v).wf cap := by
  unfold Memory.set
  split
  · exact Memory.wf_erase h a
  · exact Memory.wf_insert (Memory.wf_erase h a) (by simp [Memory.erase]) ‹_› ha

/-- A listed byte is what its address reads as. -/
theorem Memory.get_of_mem {m : Memory} (h : m.Pairwise (fun a b => a.1 < b.1)) {c : Host.Cell}
    (hc : c ∈ m) : m.get c.1 = c.2 := by
  induction m with
  | nil => simp at hc
  | cons d m ih =>
    obtain ⟨k, x⟩ := d
    rw [List.pairwise_cons] at h
    rcases List.mem_cons.1 hc with rfl | hc
    · simp [Memory.get]
    · have : k ≠ c.1 := Nat.ne_of_lt (h.1 c hc)
      simpa [Memory.get, this] using ih h.2 hc

/-! ### Words in the array -/

/-- A word written is read back at its own address (R35). -/
theorem Memory.getWord_setWord (m : Memory) (a : Nat) (v : Word) :
    (m.setWord a v).getWord a = v := by
  have h : ∀ {b c : Nat}, b ≠ c → ∀ (n : Memory) (x : Byte), (n.set b x).get c = n.get c :=
    fun hbc n x => Memory.get_set_ne n x hbc.symm
  simp only [Memory.getWord, Memory.setWord, Memory.get_set_self,
    h (show a + 3 ≠ a by omega), h (show a + 2 ≠ a by omega), h (show a + 1 ≠ a by omega),
    h (show a + 3 ≠ a + 1 by omega), h (show a + 2 ≠ a + 1 by omega),
    h (show a + 3 ≠ a + 2 by omega)]
  exact wordOfBytes_byteOfWord v

/-- The bytes of an array after a word is written: the four of the word, and the rest as before. -/
theorem Memory.get_setWord (m : Memory) (a b : Nat) (v : Word) :
    (m.setWord a v).get b = if a ≤ b ∧ b < a + 4 then byteOfWord v (b - a) else m.get b := by
  unfold Memory.setWord
  by_cases h3 : b = a + 3
  · subst h3; simp [Memory.get_set_self]
  rw [Memory.get_set_ne _ _ h3]
  by_cases h2 : b = a + 2
  · subst h2; simp [Memory.get_set_self]
  rw [Memory.get_set_ne _ _ h2]
  by_cases h1 : b = a + 1
  · subst h1; simp [Memory.get_set_self]
  rw [Memory.get_set_ne _ _ h1]
  by_cases h0 : b = a
  · subst h0; simp [Memory.get_set_self]
  rw [Memory.get_set_ne _ _ h0, if_neg (by omega)]

theorem Memory.wf_setWord {cap : Nat} {m : Memory} (h : m.wf cap) {a : Nat} (v : Word)
    (ha : a + 4 ≤ cap) : (m.setWord a v).wf cap :=
  Memory.wf_set (Memory.wf_set (Memory.wf_set (Memory.wf_set h _ (by omega)) _ (by omega)) _
    (by omega)) _ (by omega)

end Sys2Proof.Machine
end

