-- ==== Sys2Proof/Laws/Ops.lean ====
section
/-! SUPPORT. For each shared operation, once, everything it can do: the access checks, the four
memory operations, and the ends of an instruction. -/

namespace Sys2Proof.Machine

/-! ### The access checks -/

/-- What the checks of an access answer, in every case (R38). -/
theorem accessFault_eq (cap : Nat) (a : Word) (size : AccessSize) :
    (a.toNat + size.bytes > cap ∧ accessFault cap a size = some (.outOfBounds a size)) ∨
    (a.toNat + size.bytes ≤ cap ∧ size = .word ∧ a.toNat % 4 ≠ 0 ∧
      accessFault cap a size = some (.misaligned a)) ∨
    (a.toNat + size.bytes ≤ cap ∧ (size = .word → a.toNat % 4 = 0) ∧
      accessFault cap a size = none) := by
  unfold accessFault
  split
  · exact .inl ⟨‹_›, rfl⟩
  · rename_i h
    split
    · rename_i h'
      exact .inr (.inl ⟨by omega, h'.1, h'.2, rfl⟩)
    · rename_i h'
      refine .inr (.inr ⟨by omega, fun hs => ?_, rfl⟩)
      by_contra hne
      exact h' ⟨hs, hne⟩

/-- An access passes its checks when its bytes exist and, for a word, its address is aligned. -/
theorem accessFault_eq_none {cap : Nat} {a : Word} {size : AccessSize} :
    accessFault cap a size = none ↔
      a.toNat + size.bytes ≤ cap ∧ (size = .word → a.toNat % 4 = 0) := by
  rcases accessFault_eq cap a size with ⟨h, e⟩ | ⟨h, hs, ha, e⟩ | ⟨h, ha, e⟩
  · simp only [e, reduceCtorEq, false_iff, not_and]; omega
  · simp only [e, reduceCtorEq, false_iff, not_and]; intro _ hw; exact ha (hw hs)
  · exact iff_of_true e ⟨h, ha⟩

/-- The errors of a word access, with their payloads (R36 to R38). -/
theorem accessFault_word_eq_some {cap : Nat} {a : Word} {e : Fault} :
    accessFault cap a .word = some e ↔
      (a.toNat + 4 > cap ∧ e = .outOfBounds a .word) ∨
      (a.toNat + 4 ≤ cap ∧ a.toNat % 4 ≠ 0 ∧ e = .misaligned a) := by
  rcases accessFault_eq cap a .word with ⟨h, h'⟩ | ⟨h, -, ha, h'⟩ | ⟨h, ha, h'⟩ <;>
    rw [h'] <;> simp only [AccessSize.bytes] at h
  · simp [h, eq_comm]
  · simp [h, ha, eq_comm]
  · simp [h, ha rfl]

/-- The one error of a byte access (R36, R37: a byte access is never misaligned). -/
theorem accessFault_byte_eq_some {cap : Nat} {a : Word} {e : Fault} :
    accessFault cap a .byte = some e ↔ a.toNat + 1 > cap ∧ e = .outOfBounds a .byte := by
  rcases accessFault_eq cap a .byte with ⟨h, h'⟩ | ⟨-, h', -⟩ | ⟨h, -, h'⟩
  · rw [h']; simp only [AccessSize.bytes] at h; simp [h, eq_comm]
  · cases h'
  · rw [h']; simp only [AccessSize.bytes] at h; simp; omega

theorem checked_eq_ok {α : Type} {s : State} {a : Word} {size : AccessSize} {v w : α} :
    checked s a size v = .ok w ↔ accessFault s.cfg.memCapacity a size = none ∧ w = v := by
  unfold checked
  cases accessFault s.cfg.memCapacity a size <;> simp [eq_comm]

theorem checked_eq_error {α : Type} {s : State} {a : Word} {size : AccessSize} {v : α} {e : Fault} :
    checked s a size v = .error e ↔ accessFault s.cfg.memCapacity a size = some e := by
  unfold checked
  cases accessFault s.cfg.memCapacity a size <;> simp

/-! ### The memory operations -/

theorem State.readByte_eq_ok {s : State} {a : Word} {b : Byte} :
    s.readByte a = .ok b ↔ a.toNat + 1 ≤ s.cfg.memCapacity ∧ b = s.mem.get a.toNat := by
  simp [State.readByte, checked_eq_ok, accessFault_eq_none, AccessSize.bytes]

theorem State.readWord_eq_ok {s : State} {a v : Word} :
    s.readWord a = .ok v ↔
      (a.toNat + 4 ≤ s.cfg.memCapacity ∧ a.toNat % 4 = 0) ∧ v = s.mem.getWord a.toNat := by
  simp [State.readWord, checked_eq_ok, accessFault_eq_none, AccessSize.bytes]

theorem State.writeByte_eq_ok {s t : State} {a : Word} {v : Byte} :
    s.writeByte a v = .ok t ↔
      a.toNat + 1 ≤ s.cfg.memCapacity ∧ t = s.setMem (s.mem.set a.toNat v) := by
  simp [State.writeByte, checked_eq_ok, accessFault_eq_none, AccessSize.bytes]

theorem State.writeWord_eq_ok {s t : State} {a v : Word} :
    s.writeWord a v = .ok t ↔
      (a.toNat + 4 ≤ s.cfg.memCapacity ∧ a.toNat % 4 = 0) ∧
        t = s.setMem (s.mem.setWord a.toNat v) := by
  simp [State.writeWord, checked_eq_ok, accessFault_eq_none, AccessSize.bytes]

/-- A word read fails exactly as its checks say. -/
theorem State.readWord_eq_error {s : State} {a : Word} {e : Fault} :
    s.readWord a = .error e ↔ accessFault s.cfg.memCapacity a .word = some e := checked_eq_error

/-- A word write fails exactly as its checks say. -/
theorem State.writeWord_eq_error {s : State} {a v : Word} {e : Fault} :
    s.writeWord a v = .error e ↔ accessFault s.cfg.memCapacity a .word = some e := checked_eq_error

/-- The bytes read the same when the array and the capacity are the same. -/
theorem State.readByte_congr {s t : State} (hm : t.mem = s.mem) (hc : t.cfg = s.cfg) (a : Word) :
    t.readByte a = s.readByte a := by
  simp only [State.readByte, checked, hm, hc]

theorem State.readWord_congr {s t : State} (hm : t.mem = s.mem) (hc : t.cfg = s.cfg) (a : Word) :
    t.readWord a = s.readWord a := by
  simp only [State.readWord, checked, hm, hc]

/-- The bytes after a word is stored: the four stored ones, and every other byte as before. -/
theorem State.readByte_setWord (s : State) (a b : Word) (v : Word) :
    (s.setMem (s.mem.setWord a.toNat v)).readByte b =
      if a.toNat ≤ b.toNat ∧ b.toNat < a.toNat + 4 then
        checked s b .byte (byteOfWord v (b.toNat - a.toNat))
      else s.readByte b := by
  simp only [State.readByte, State.setMem_mem, Memory.get_setWord]
  split <;> rfl

/-! ### Outcomes -/

theorem orRaise_eq_next {α : Type} {r : Except Fault α}
    {k : α → Host.Outcome State Fault Refusal} {t : State} :
    orRaise r k = .next t ↔ ∃ v, r = .ok v ∧ k v = .next t := by
  cases r <;> simp [orRaise, raise]

theorem orRaise_eq_fault {α : Type} {r : Except Fault α}
    {k : α → Host.Outcome State Fault Refusal} {e : Fault} :
    orRaise r k = .fault e ↔ r = .error e ∨ ∃ v, r = .ok v ∧ k v = .fault e := by
  cases r <;> simp [orRaise, raise]

theorem orRaise_eq_refused {α : Type} {r : Except Fault α}
    {k : α → Host.Outcome State Fault Refusal} {e : Refusal} :
    orRaise r k = .refused e ↔ ∃ v, r = .ok v ∧ k v = .refused e := by
  cases r <;> simp [orRaise, raise]

theorem writeBack_eq_next {d : RegIdx} {v : Word} {s t : State} :
    writeBack d v s = .next t ↔ t = (s.setReg d v).setPc s.npc := by
  simp [writeBack, eq_comm]

theorem transfer_eq_next {a : Word} {s t : State} : transfer a s = .next t ↔ t = s.setPc a := by
  simp [transfer, eq_comm]

/-! ### Operands -/

/-- The bytes of an aligned word have consecutive addresses: the sums do not wrap. -/
theorem toNat_add_of_aligned {a : Word} (h : a.toNat % 4 = 0) {k : Nat} (hk : k < 4) :
    (a + BitVec.ofNat 32 k).toNat = a.toNat + k := by
  have := a.isLt
  rw [BitVec.toNat_add, BitVec.toNat_ofNat]; omega

theorem State.npc_toNat (s : State) : s.npc.toNat = (s.pc.toNat + 4) % 2 ^ 32 := by
  simp [State.npc]

theorem toNat_add_one_of_aligned {a : Word} (h : a.toNat % 4 = 0) : (a + 1).toNat = a.toNat + 1 :=
  toNat_add_of_aligned h (k := 1) (by omega)

theorem toNat_add_two_of_aligned {a : Word} (h : a.toNat % 4 = 0) : (a + 2).toNat = a.toNat + 2 :=
  toNat_add_of_aligned h (k := 2) (by omega)

theorem toNat_add_three_of_aligned {a : Word} (h : a.toNat % 4 = 0) :
    (a + 3).toNat = a.toNat + 3 :=
  toNat_add_of_aligned h (k := 3) (by omega)

/-- Aligned addresses stay aligned when a multiple of 4 is added modulo `2^32`. -/
theorem State.npc_mod_four {s : State} (h : s.pc.toNat % 4 = 0) : s.npc.toNat % 4 = 0 := by
  rw [State.npc_toNat]; omega

end Sys2Proof.Machine
end

