-- ==== Sys2Proof/Laws/Exec.lean ====
section
/-! SUPPORT. What executing an instruction, and a step, can do, said once: the forms of a next
state, where an error can come from, and that nothing is refused. -/

namespace Sys2Proof.Machine

/-- The ways an instruction can leave the state: it writes its general register and goes on; it only
moves the program counter; it links and jumps; it stores a word and goes on. -/
inductive NextForm (s : State) : Instr → State → Prop
  | wrote {i d} (v : Word) (h : writtenReg i = some d) :
      NextForm s i ((s.setReg d v).setPc s.npc)
  | jumped (target) : NextForm s (.j target) (s.setPc (jumpDest s target))
  | linked (target) : NextForm s (.jal target) ((s.setLr s.npc).setPc (jumpDest s target))
  | branched {i} (taken : Bool) (imm : Word) (h : writtenReg i = none)
      (hi : i.mnemonic ∈ [.beq, .bne, .blez, .bgtz]) :
      NextForm s i (s.setPc (branchDest s taken imm))
  | stored (rt rs : RegIdx) (imm : Word)
      (hb : (effectiveAddress s rs imm).toNat + 4 ≤ s.cfg.memCapacity)
      (ha : (effectiveAddress s rs imm).toNat % 4 = 0) :
      NextForm s (.sw rt rs imm)
        ((s.setMem (s.mem.setWord (effectiveAddress s rs imm).toNat (s.getReg rt))).setPc s.npc)

/-- Every next state of an instruction has one of the forms. -/
theorem exec_nextForm {i : Instr} {s t : State} (h : exec i s = .next t) : NextForm s i t := by
  cases i
  case lw rt rs imm =>
    obtain ⟨v, -, hv⟩ := orRaise_eq_next.1 (show orRaise _ _ = _ from h)
    obtain rfl := writeBack_eq_next.1 hv
    exact .wrote v rfl
  case sw rt rs imm =>
    obtain ⟨u, hu, hv⟩ := orRaise_eq_next.1 (show orRaise _ _ = _ from h)
    obtain ⟨⟨hb, ha⟩, rfl⟩ := State.writeWord_eq_ok.1 hu
    obtain rfl := transfer_eq_next.1 hv
    exact .stored rt rs imm hb ha
  case j target =>
    obtain rfl := transfer_eq_next.1 (show transfer _ _ = _ from h)
    exact .jumped target
  case jal target =>
    obtain rfl := transfer_eq_next.1 (show transfer _ _ = _ from h)
    exact .linked target
  case' beq | bne | blez | bgtz =>
    obtain rfl := transfer_eq_next.1 (show transfer _ _ = _ from h)
    exact .branched _ _ rfl (by simp [Instr.mnemonic])
  all_goals
    obtain rfl := writeBack_eq_next.1 (show writeBack _ _ _ = _ from h)
    exact .wrote _ rfl

/-- No instruction is refused. -/
theorem exec_ne_refused (i : Instr) (s : State) (r : Refusal) : exec i s ≠ .refused r := by
  intro h
  cases i
  case lw =>
    obtain ⟨v, -, hv⟩ := orRaise_eq_refused.1 (show orRaise _ _ = _ from h)
    cases hv
  case sw =>
    obtain ⟨v, -, hv⟩ := orRaise_eq_refused.1 (show orRaise _ _ = _ from h)
    cases hv
  all_goals cases h

/-- An error of an instruction is that of its data access (R188). -/
theorem exec_eq_fault {i : Instr} {s : State} {e : Fault} (h : exec i s = .fault e) :
    ∃ rt rs imm, (i = .lw rt rs imm ∨ i = .sw rt rs imm) ∧
      accessFault s.cfg.memCapacity (effectiveAddress s rs imm) .word = some e := by
  cases i
  case lw rt rs imm =>
    rcases orRaise_eq_fault.1 (show orRaise _ _ = _ from h) with h | ⟨v, -, hv⟩
    · exact ⟨rt, rs, imm, .inl rfl, checked_eq_error.1 h⟩
    · cases hv
  case sw rt rs imm =>
    rcases orRaise_eq_fault.1 (show orRaise _ _ = _ from h) with h | ⟨v, -, hv⟩
    · exact ⟨rt, rs, imm, .inr rfl, checked_eq_error.1 h⟩
    · cases hv
  all_goals cases h

/-- A step that completes fetched a word, decoded it and executed the instruction (R91). -/
theorem step_eq_next {s t : State} :
    step s = .next t ↔ ∃ w i, s.fetchWord = .ok w ∧ decodeWord w = some i ∧ exec i s = .next t := by
  unfold step
  rw [orRaise_eq_next]
  constructor
  · rintro ⟨w, hw, h⟩
    cases hd : decodeWord w with
    | some i => exact ⟨w, i, hw, hd, by simpa [hd] using h⟩
    | none => simp [hd, raiseUnimplemented, raise] at h
  · rintro ⟨w, i, hw, hd, h⟩
    exact ⟨w, hw, by simpa [hd] using h⟩

/-- A step that returns an error failed in its fetch, or fetched an unimplemented word, or failed in
its instruction (R175). -/
theorem step_eq_fault {s : State} {e : Fault} :
    step s = .fault e ↔ s.fetchWord = .error e ∨
      (∃ w, s.fetchWord = .ok w ∧ decodeWord w = none ∧
        e = .unimplementedInstruction (opField w) (functField w)) ∨
      ∃ w i, s.fetchWord = .ok w ∧ decodeWord w = some i ∧ exec i s = .fault e := by
  unfold step
  rw [orRaise_eq_fault]
  constructor
  · rintro (h | ⟨w, hw, h⟩)
    · exact .inl h
    · cases hd : decodeWord w with
      | some i => exact .inr (.inr ⟨w, i, hw, hd, by simpa [hd] using h⟩)
      | none =>
        refine .inr (.inl ⟨w, hw, hd, ?_⟩)
        simpa [hd, raiseUnimplemented, raise, eq_comm] using h
  · rintro (h | ⟨w, hw, hd, rfl⟩ | ⟨w, i, hw, hd, h⟩)
    · exact .inl h
    · exact .inr ⟨w, hw, by simp [hd, raiseUnimplemented, raise]⟩
    · exact .inr ⟨w, hw, by simpa [hd] using h⟩

/-! ### The predicates of the claims -/

theorem wroteReg_writeBack (s : State) (d : RegIdx) (v : Word) :
    WroteReg s ((s.setReg d v).setPc s.npc) d v := by
  refine ⟨?_, fun r hr => ?_, ?_, by simp, State.readByte_congr (by simp) (by simp), by simp⟩
  · by_cases hd : d = 0
    · subst hd; rfl
    · simp [State.getReg_setReg, hd]
  · simp [State.getReg_setReg, hr]
  · simp [State.npc_toNat, nextAddress]

theorem wentTo_setPc (s : State) (a : Word) : WentTo s (s.setPc a) a.toNat :=
  ⟨rfl, fun _ => rfl, rfl, fun _ => rfl, rfl⟩

/-! ### The canonical form of memory (State.wf), kept by every operation that writes memory -/

theorem State.resetOf_wf {c : Config} (h : c.wf) : (State.resetOf c).wf :=
  ⟨h, Memory.wf_nil _⟩

theorem State.reset_wf : State.reset.wf := State.resetOf_wf (by decide)

theorem State.writeByte_wf {s t : State} {a : Word} {v : Byte} (h : s.wf)
    (hw : s.writeByte a v = .ok t) : t.wf := by
  obtain ⟨hb, rfl⟩ := State.writeByte_eq_ok.1 hw
  exact ⟨h.1, Memory.wf_set h.2 _ hb⟩

theorem State.writeWord_wf {s t : State} {a v : Word} (h : s.wf)
    (hw : s.writeWord a v = .ok t) : t.wf := by
  obtain ⟨⟨hb, -⟩, rfl⟩ := State.writeWord_eq_ok.1 hw
  exact ⟨h.1, Memory.wf_setWord h.2 _ hb⟩

theorem State.placeWord_wf {s : State} (h : s.wf) (w : Word) : (s.placeWord w).wf := by
  unfold State.placeWord
  split
  · exact State.writeWord_wf h ‹_›
  · exact h

end Sys2Proof.Machine
end

