-- ==== Sys2Proof/Laws/PerInstr.lean ====
section
/-! SUPPORT. A law of every instruction as syntax: its encoded word carries the fixed bits of its own
row of the opcode table (R70) and has zeros in the bits it ignores (R72). -/

namespace Sys2Proof.Laws.FixedBits

/-- The encoded word matches every row of its own mnemonic, and writes its ignored bits as zero. -/
def Statement (i : Instr) : Prop :=
  (∀ row ∈ opcodeTable, row.mnemonic = i.mnemonic → encode i &&& row.mask = row.pattern) ∧
  encode i &&& ignoredBits i.mnemonic = 0

/-- Masking a word to its opcode. -/
theorem and_opMask (w : Word) : w &&& 0xFC000000#32 = (opField w ++ (0#26 : BitVec 26) : Word) := by
  apply BitVec.eq_of_getLsbD_eq
  intro i hi
  interval_cases i <;>
      simp only [opField, BitVec.getLsbD_and, BitVec.getLsbD_extractLsb', BitVec.getLsbD_append] <;> simp

/-- Masking a word to its opcode and function code. -/
theorem and_opFunctMask (w : Word) :
    w &&& 0xFC00003F#32 = (opField w ++ (0#20 : BitVec 20) ++ functField w : Word) := by
  apply BitVec.eq_of_getLsbD_eq
  intro i hi
  interval_cases i <;>
      simp only [opField, functField, BitVec.getLsbD_and, BitVec.getLsbD_extractLsb', BitVec.getLsbD_append] <;> simp

theorem encodeR_ignored (funct : BitVec 6) (rd rs rt : RegIdx) :
    encodeR funct rd rs rt &&& 0x000007C0#32 = 0 := by
  apply BitVec.eq_of_getLsbD_eq
  intro i hi
  interval_cases i <;>
      simp only [encodeR, BitVec.getLsbD_and, BitVec.getLsbD_append] <;> simp

theorem encodeI_rt_ignored (op : BitVec 6) (rs : RegIdx) (imm16 : BitVec 16) :
    encodeI op rs 0 imm16 &&& 0x001F0000#32 = 0 := by
  apply BitVec.eq_of_getLsbD_eq
  intro i hi
  interval_cases i <;>
      simp only [encodeI, regBits, BitVec.getLsbD_and, BitVec.getLsbD_append] <;> simp

theorem encodeI_rs_ignored (op : BitVec 6) (rt : RegIdx) (imm16 : BitVec 16) :
    encodeI op 0 rt imm16 &&& 0x03E00000#32 = 0 := by
  apply BitVec.eq_of_getLsbD_eq
  intro i hi
  interval_cases i <;>
      simp only [encodeI, regBits, BitVec.getLsbD_and, BitVec.getLsbD_append] <;> simp

/-- The law of an instruction whose row is known. -/
theorem of_row {i : Instr} (row : OpcodeRow)
    (hrow : opcodeTable.filter (fun r => r.mnemonic = i.mnemonic) = [row])
    (h : encode i &&& row.mask = row.pattern) (h0 : encode i &&& ignoredBits i.mnemonic = 0) :
    Statement i := by
  refine ⟨fun r hr hm => ?_, h0⟩
  have : r ∈ opcodeTable.filter (fun r => r.mnemonic = i.mnemonic) := by simp [hr, hm]
  rw [hrow, List.mem_singleton] at this
  exact this ▸ h

theorem add (rd rs rt : RegIdx) : Statement (.add rd rs rt) :=
  of_row ⟨.add, 0xFC00003F#32, 0x00000020#32⟩ rfl
    (by rw [and_opFunctMask, encode, opField_encodeR, functField_encodeR]; rfl)
    (encodeR_ignored ..)

theorem addu (rd rs rt : RegIdx) : Statement (.addu rd rs rt) :=
  of_row ⟨.addu, 0xFC00003F#32, 0x00000021#32⟩ rfl
    (by rw [and_opFunctMask, encode, opField_encodeR, functField_encodeR]; rfl)
    (encodeR_ignored ..)

theorem sub (rd rs rt : RegIdx) : Statement (.sub rd rs rt) :=
  of_row ⟨.sub, 0xFC00003F#32, 0x00000022#32⟩ rfl
    (by rw [and_opFunctMask, encode, opField_encodeR, functField_encodeR]; rfl)
    (encodeR_ignored ..)

theorem subu (rd rs rt : RegIdx) : Statement (.subu rd rs rt) :=
  of_row ⟨.subu, 0xFC00003F#32, 0x00000023#32⟩ rfl
    (by rw [and_opFunctMask, encode, opField_encodeR, functField_encodeR]; rfl)
    (encodeR_ignored ..)

theorem j (target : BitVec 26) : Statement (.j target) :=
  of_row ⟨.j, 0xFC000000#32, 0x08000000#32⟩ rfl
    (by rw [and_opMask, encode, opField_encodeJ]; rfl) BitVec.and_zero

theorem jal (target : BitVec 26) : Statement (.jal target) :=
  of_row ⟨.jal, 0xFC000000#32, 0x0C000000#32⟩ rfl
    (by rw [and_opMask, encode, opField_encodeJ]; rfl) BitVec.and_zero

theorem blez (rs : RegIdx) (imm : Word) : Statement (.blez rs imm) :=
  of_row ⟨.blez, 0xFC000000#32, 0x18000000#32⟩ rfl
    (by rw [and_opMask, encode, opField_encodeI]; rfl) (encodeI_rt_ignored ..)

theorem bgtz (rs : RegIdx) (imm : Word) : Statement (.bgtz rs imm) :=
  of_row ⟨.bgtz, 0xFC000000#32, 0x1C000000#32⟩ rfl
    (by rw [and_opMask, encode, opField_encodeI]; rfl) (encodeI_rt_ignored ..)

theorem lui (rt : RegIdx) (imm : Word) : Statement (.lui rt imm) :=
  of_row ⟨.lui, 0xFC000000#32, 0x3C000000#32⟩ rfl
    (by rw [and_opMask, encode, opField_encodeI]; rfl) (encodeI_rs_ignored ..)

theorem beq (rs rt : RegIdx) (imm : Word) : Statement (.beq rs rt imm) :=
  of_row ⟨.beq, 0xFC000000#32, 0x10000000#32⟩ rfl
    (by rw [and_opMask, encode, opField_encodeI]; rfl) BitVec.and_zero

theorem bne (rs rt : RegIdx) (imm : Word) : Statement (.bne rs rt imm) :=
  of_row ⟨.bne, 0xFC000000#32, 0x14000000#32⟩ rfl
    (by rw [and_opMask, encode, opField_encodeI]; rfl) BitVec.and_zero

theorem addi (rt rs : RegIdx) (imm : Word) : Statement (.addi rt rs imm) :=
  of_row ⟨.addi, 0xFC000000#32, 0x20000000#32⟩ rfl
    (by rw [and_opMask, encode, opField_encodeI]; rfl) BitVec.and_zero

theorem addiu (rt rs : RegIdx) (imm : Word) : Statement (.addiu rt rs imm) :=
  of_row ⟨.addiu, 0xFC000000#32, 0x24000000#32⟩ rfl
    (by rw [and_opMask, encode, opField_encodeI]; rfl) BitVec.and_zero

theorem slti (rt rs : RegIdx) (imm : Word) : Statement (.slti rt rs imm) :=
  of_row ⟨.slti, 0xFC000000#32, 0x28000000#32⟩ rfl
    (by rw [and_opMask, encode, opField_encodeI]; rfl) BitVec.and_zero

theorem sltiu (rt rs : RegIdx) (imm : Word) : Statement (.sltiu rt rs imm) :=
  of_row ⟨.sltiu, 0xFC000000#32, 0x2C000000#32⟩ rfl
    (by rw [and_opMask, encode, opField_encodeI]; rfl) BitVec.and_zero

theorem andi (rt rs : RegIdx) (imm : Word) : Statement (.andi rt rs imm) :=
  of_row ⟨.andi, 0xFC000000#32, 0x30000000#32⟩ rfl
    (by rw [and_opMask, encode, opField_encodeI]; rfl) BitVec.and_zero

theorem ori (rt rs : RegIdx) (imm : Word) : Statement (.ori rt rs imm) :=
  of_row ⟨.ori, 0xFC000000#32, 0x34000000#32⟩ rfl
    (by rw [and_opMask, encode, opField_encodeI]; rfl) BitVec.and_zero

theorem xori (rt rs : RegIdx) (imm : Word) : Statement (.xori rt rs imm) :=
  of_row ⟨.xori, 0xFC000000#32, 0x38000000#32⟩ rfl
    (by rw [and_opMask, encode, opField_encodeI]; rfl) BitVec.and_zero

theorem lw (rt rs : RegIdx) (imm : Word) : Statement (.lw rt rs imm) :=
  of_row ⟨.lw, 0xFC000000#32, 0x8C000000#32⟩ rfl
    (by rw [and_opMask, encode, opField_encodeI]; rfl) BitVec.and_zero

theorem sw (rt rs : RegIdx) (imm : Word) : Statement (.sw rt rs imm) :=
  of_row ⟨.sw, 0xFC000000#32, 0xAC000000#32⟩ rfl
    (by rw [and_opMask, encode, opField_encodeI]; rfl) BitVec.and_zero

end Sys2Proof.Laws.FixedBits
end

