-- ==== Sys2Proof/Tests/Slice0.lean ====
section
/-! SUPPORT. Tests of the model. The expected results are those of spec/95_test_vectors.md (ids in
the docstrings) and of the examples of the rules; none comes from the model. After them, a witness
for the hypotheses of each statement that has some, at the edges of their ranges. -/

namespace Sys2Proof.Tests

open Sys2Proof.Machine

/-! ### Helpers -/

/-- A start state of spec/95_test_vectors.md: capacity, `pc`, registers and memory words set
directly, all else zero. -/
def start (cap : Nat) (pc : Word) (regs : List (RegIdx × Word)) (words : List (Nat × Word)) : State :=
  regs.foldl (fun s p => s.setReg p.1 p.2)
    (words.foldl (fun s p => s.setMem (s.mem.setWord p.1 p.2))
      ((State.resetOf { memCapacity := cap, resetPc := 0 }).setPc pc))

/-- The default start state of the vectors: 4096 bytes, `pc = 0x100`, the word `w` there. -/
def at100 (w : Word) (regs : List (RegIdx × Word)) : State := start 4096 0x100 regs [(0x100, w)]

/-- A branch vector's start state: `pc = 0x200`. -/
def at200 (w : Word) (regs : List (RegIdx × Word)) : State := start 4096 0x200 regs [(0x200, w)]

/-- What an observation sees after one step that completes. -/
def seen {α : Type} (s : State) (f : State → α) : Option α :=
  match step s with
  | .next t => some (f t)
  | .fault _ => none
  | .refused _ => none

/-- The error of a step that raises one. -/
def raised (s : State) : Option Fault :=
  match step s with
  | .next _ => none
  | .fault e => some e
  | .refused _ => none

/-- Register `r` and `pc`. -/
def regPc (r : RegIdx) (t : State) : Word × Word := (t.getReg r, t.pc)

/-! ### Well-formedness: an ill-formed immediate of each constructor that has one is refused -/

theorem test_illFormed_beq : Instr.wellFormed (.beq 1 2 0x00008000) = false := by decide
theorem test_illFormed_bne : Instr.wellFormed (.bne 1 2 0xFFFF7FFF) = false := by decide
theorem test_illFormed_blez : Instr.wellFormed (.blez 1 0x00010000) = false := by decide
theorem test_illFormed_bgtz : Instr.wellFormed (.bgtz 1 0x80000000) = false := by decide
theorem test_illFormed_addi : Instr.wellFormed (.addi 1 0 0x00008000) = false := by decide
theorem test_illFormed_addiu : Instr.wellFormed (.addiu 1 0 0xFFFE8000) = false := by decide
theorem test_illFormed_slti : Instr.wellFormed (.slti 1 0 0x0000FFFF) = false := by decide
theorem test_illFormed_sltiu : Instr.wellFormed (.sltiu 1 0 0x00018000) = false := by decide
theorem test_illFormed_andi : Instr.wellFormed (.andi 1 0 0x0000FFFF) = false := by decide
theorem test_illFormed_ori : Instr.wellFormed (.ori 1 0 0x0000BEEF) = false := by decide
theorem test_illFormed_xori : Instr.wellFormed (.xori 1 0 0x7FFFFFFF) = false := by decide
theorem test_illFormed_lui : Instr.wellFormed (.lui 1 0xDEAD0000) = false := by decide
theorem test_illFormed_lw : Instr.wellFormed (.lw 1 2 0x0000FFFC) = false := by decide
theorem test_illFormed_sw : Instr.wellFormed (.sw 1 2 0xFFFF0000) = false := by decide
theorem test_wellFormed_edges : Instr.wellFormed (.addi 1 0 0xFFFF8000) = true ∧
    Instr.wellFormed (.addi 1 0 0x00007FFF) = true := by decide

/-! ### Decoding: a word of each instruction, from the spec -/

theorem test_decode_add : decodeWord 0x00221820 = some (.add 3 1 2) := by decide
/-- Bits 10:6 are ignored (R72). -/
theorem test_decode_add_ignored : decodeWord 0x00221FE0 = some (.add 3 1 2) := by decide
theorem test_decode_addu : decodeWord 0x00221821 = some (.addu 3 1 2) := by decide
theorem test_decode_sub : decodeWord 0x00052022 = some (.sub 4 0 5) := by decide
theorem test_decode_subu : decodeWord 0x00221823 = some (.subu 3 1 2) := by decide
/-- All 26 target bits count (U10). -/
theorem test_decode_j : decodeWord 0x0AFFFFFF = some (.j 0x2FFFFFF) := by decide
theorem test_decode_jal : decodeWord 0x0C000020 = some (.jal 0x20) := by decide
theorem test_decode_beq : decodeWord 0x1000FFFF = some (.beq 0 0 0xFFFFFFFF) := by decide
theorem test_decode_bne : decodeWord 0x1422FFFE = some (.bne 1 2 0xFFFFFFFE) := by decide
theorem test_decode_blez : decodeWord 0x18290003 = some (.blez 1 3) := by decide
theorem test_decode_bgtz : decodeWord 0x1C20FFFD = some (.bgtz 1 0xFFFFFFFD) := by decide
theorem test_decode_addi : decodeWord 0x200101FF = some (.addi 1 0 0x1FF) := by decide
theorem test_decode_addiu : decodeWord 0x24228000 = some (.addiu 2 1 0xFFFF8000) := by decide
theorem test_decode_slti : decodeWord 0x2822FFFF = some (.slti 2 1 0xFFFFFFFF) := by decide
theorem test_decode_sltiu : decodeWord 0x2C228000 = some (.sltiu 2 1 0xFFFF8000) := by decide
theorem test_decode_andi : decodeWord 0x3022FFFF = some (.andi 2 1 0xFFFFFFFF) := by decide
theorem test_decode_ori : decodeWord 0x3422BEEF = some (.ori 2 1 0xFFFFBEEF) := by decide
theorem test_decode_xori : decodeWord 0x3822FFFF = some (.xori 2 1 0xFFFFFFFF) := by decide
theorem test_decode_lui : decodeWord 0x3CE1DEAD = some (.lui 1 0xFFFFDEAD) := by decide
theorem test_decode_lw : decodeWord 0x8C43FFFC = some (.lw 3 2 0xFFFFFFFC) := by decide
theorem test_decode_sw : decodeWord 0xAC410000 = some (.sw 1 2 0) := by decide

/-- Words that are no instruction: rows A14 to A17, F11 to F15, and 48 for 32 (U9). -/
theorem test_decode_none : [0x00221824, 0x00221830, 0x00000000, 0x03E00008, 0x04010002, 0x40026000,
    0x80430000, 0xFFFFFFFF, 0x70221802].all (fun w => decodeWord w == none) = true := by decide

/-- Bytes: the first byte is the most significant one (R34), and three bytes are no instruction. -/
theorem test_decodeBytes : decodeBytes [0x20, 0x01, 0x01, 0xFF, 0x77] = .ok (.addi 1 0 0x1FF, [0x77]) ∧
    decodeBytes [0x00, 0x00, 0x00, 0x00] = .error (.unimplemented 0 0) ∧
    decodeBytes [0x20, 0x01, 0x01] = .error (.truncated 3) :=
  ⟨rfl, rfl, rfl⟩

/-- The table word is numbered as the opcode table numbers it. -/
theorem test_decodeTableWord : decodeTableWord 32 0x200101FF = some (.addi 1 0 0x1FF) := by decide

/-- All the fields of the word of section 2 (R61): they are taken whatever the opcode. -/
theorem test_splitFields : splitFields 0x1000FFFF =
    { op := 4, funct := 63, rs := 0, rt := 0, rd := 31, imm16 := 0xFFFF, imm := 0xFFFFFFFF,
      target := 0x000FFFF } := by decide

/-- No word is two instructions: of any two rows some fixed bit differs (R70). -/
theorem test_rows_disjoint : opcodeTable.Pairwise (fun a b =>
    a.pattern &&& (a.mask &&& b.mask) ≠ b.pattern &&& (a.mask &&& b.mask)) := by decide

/-- The encodings of the examples of R82. -/
theorem test_encode : encode (.addi 1 0 0x1FF) = 0x200101FF ∧ encode (.sw 1 2 0) = 0xAC410000 ∧
    encode (.lw 3 2 0xFFFFFFFC) = 0x8C43FFFC ∧ encode (.add 3 1 2) = 0x00221820 ∧
    encode (.jal 0x20) = 0x0C000020 := by decide

/-! ### Steps -/

/-- A2. -/
theorem test_add_wraps :
    seen (at100 0x00221820 [(1, 0x7FFFFFFF), (2, 1)]) (regPc 3) = some (0x80000000, 0x104) := by
  decide
/-- A5: destination register 0. -/
theorem test_add_r0 : seen (at100 0x00220020 [(1, 5), (2, 7)]) (regPc 0) = some (0, 0x104) := by
  decide
/-- A7. -/
theorem test_addu_wraps :
    seen (at100 0x00221821 [(1, 0xFFFFFFFF), (2, 2)]) (regPc 3) = some (1, 0x104) := by decide
/-- A9: `rs` minus `rt`. -/
theorem test_sub_order :
    seen (at100 0x00221822 [(1, 5), (2, 7)]) (regPc 3) = some (0xFFFFFFFE, 0x104) := by decide
/-- A12: the source is the destination. -/
theorem test_subu_same : seen (at100 0x00210823 [(1, 0x1234)]) (regPc 1) = some (0, 0x104) := by
  decide
/-- A13. -/
theorem test_subu_borrows :
    seen (at100 0x00221823 [(2, 0xFFFFFFFF)]) (regPc 3) = some (1, 0x104) := by decide
/-- J6: the region is that of `npc`. -/
theorem test_j_region : seen (start (2 ^ 32) 0x0FFFFFFC [] [(0x0FFFFFFC, 0x08000000)]) State.pc =
    some 0x10000000 := by decide
/-- J3: `LR = pc + 4`, and register 31 keeps its value. -/
theorem test_jal_links : seen (at100 0x0C000020 [(31, 0x55)]) (fun t => (t.lr, t.pc, t.getReg 31)) =
    some (0x104, 0x80, 0x55) := by decide
/-- J7: `npc` wraps to 0. -/
theorem test_jal_wraps : seen (start (2 ^ 32) 0xFFFFFFFC [] [(0xFFFFFFFC, 0x0C000010)])
    (fun t => (t.lr, t.pc)) = some (0, 0x40) := by decide
/-- B3. -/
theorem test_beq_taken : seen (at200 0x1000FFFF []) State.pc = some 0x200 := by decide
/-- B2. -/
theorem test_beq_not_taken : seen (at200 0x10220002 [(1, 7), (2, 8)]) State.pc = some 0x204 := by
  decide
/-- B4. -/
theorem test_bne_taken : seen (at200 0x1422FFFE [(1, 1), (2, 2)]) State.pc = some 0x1FC := by decide
/-- B5. -/
theorem test_bne_not_taken : seen (at200 0x1422FFFE [(1, 2), (2, 2)]) State.pc = some 0x204 := by
  decide
/-- B6, B7, B8. -/
theorem test_blez : seen (at200 0x18200003 []) State.pc = some 0x210 ∧
    seen (at200 0x18200003 [(1, 0x80000000)]) State.pc = some 0x210 ∧
    seen (at200 0x18200003 [(1, 1)]) State.pc = some 0x204 := by decide
/-- B10, B11, B12. -/
theorem test_bgtz : seen (at200 0x1C20FFFD [(1, 1)]) State.pc = some 0x1F8 ∧
    seen (at200 0x1C20FFFD []) State.pc = some 0x204 ∧
    seen (at200 0x1C20FFFD [(1, 0xFFFFFFFF)]) State.pc = some 0x204 := by decide
/-- I3. -/
theorem test_addi_negative : seen (at100 0x2022FFFF []) (regPc 2) = some (0xFFFFFFFF, 0x104) := by
  decide
/-- I4. -/
theorem test_addi_wraps :
    seen (at100 0x20210001 [(1, 0x7FFFFFFF)]) (regPc 1) = some (0x80000000, 0x104) := by decide
/-- I7: the immediate is sign-extended. -/
theorem test_addiu_signed : seen (at100 0x24228000 []) (regPc 2) = some (0xFFFF8000, 0x104) := by
  decide
/-- I14: a signed comparison. -/
theorem test_slti_signed :
    seen (at100 0x28220005 [(1, 0x80000001), (2, 9)]) (regPc 2) = some (1, 0x104) := by decide
/-- I10: equal is not below. -/
theorem test_slti_equal :
    seen (at100 0x2822FFFF [(1, 0xFFFFFFFF), (2, 9)]) (regPc 2) = some (0, 0x104) := by decide
/-- I21: the immediate is sign-extended. -/
theorem test_sltiu_extends :
    seen (at100 0x2C228000 [(1, 0x8000), (2, 9)]) (regPc 2) = some (1, 0x104) := by decide
/-- I22: an unsigned comparison. -/
theorem test_sltiu_unsigned :
    seen (at100 0x2C220005 [(1, 0x80000001), (2, 9)]) (regPc 2) = some (0, 0x104) := by decide
/-- L2: zero-extended. -/
theorem test_andi :
    seen (at100 0x30228000 [(1, 0xFFFFFFFF)]) (regPc 2) = some (0x8000, 0x104) := by decide
/-- L5. -/
theorem test_ori :
    seen (at100 0x3422BEEF [(1, 0xDEAD0000)]) (regPc 2) = some (0xDEADBEEF, 0x104) := by decide
/-- L7. -/
theorem test_xori :
    seen (at100 0x3822FFFF [(1, 0x12345678)]) (regPc 2) = some (0x1234A987, 0x104) := by decide
/-- L9. -/
theorem test_lui : seen (at100 0x3C01DEAD [(1, 0xFFFF)]) (regPc 1) = some (0xDEAD0000, 0x104) := by
  decide
/-- M3: big-endian, negative displacement. -/
theorem test_lw : seen ((at100 0x8C43FFFC [(2, 0x304)]).setMem
    [(0x100, 0x8C), (0x101, 0x43), (0x102, 0xFF), (0x103, 0xFC), (0x300, 0xDE), (0x301, 0xAD),
     (0x302, 0xBE), (0x303, 0xEF)]) (regPc 3) = some (0xDEADBEEF, 0x104) := by decide
/-- M6: destination 0 does not suppress the access check (D24). -/
theorem test_lw_r0_checked : raised (at100 0x8C000002 []) = some (.misaligned 2) := by decide
/-- M9: the last word of the memory, its four bytes in address order. -/
theorem test_sw : seen (at100 0xAC41FFFC [(1, 0xDEADBEEF), (2, 0x1000)])
    (fun t => [0xFFC, 0xFFD, 0xFFE, 0xFFF].map t.mem.get) = some [0xDE, 0xAD, 0xBE, 0xEF] := by decide
/-- M16: a zero stored over a non-zero word leaves the canonical form: no byte of it is listed. -/
theorem test_sw_zero : seen (start 4096 0x100 [(2, 0x300)] [(0x100, 0xAC400000), (0x300, 0xDEADBEEF)])
    State.mem = some [(0x100, 0xAC), (0x101, 0x40)] := by decide

/-! ### Errors of the fetch and the decoder, reset, and the host's operations -/

/-- A15: function code 48 is not 32. -/
theorem test_unimplemented : raised (at100 0x00221830 []) = some (.unimplementedInstruction 0 48) := by
  decide
/-- F14: the `funct` of the payload is the word's, for every opcode. -/
theorem test_unimplemented_payload :
    raised (at100 0xFFFFFFFF []) = some (.unimplementedInstruction 63 63) := by decide
/-- F2: out of bounds wins over misaligned. -/
theorem test_fetch_bounds_first : raised (start 4096 0xFFD [] []) = some (.outOfBounds 0xFFD .word) := by
  decide
/-- F6. -/
theorem test_fetch_misaligned : raised (start 4096 0xFFA [] []) = some (.misaligned 0xFFA) := by decide
/-- F8: the bounds check does not wrap. -/
theorem test_fetch_no_wrap :
    raised (start 4096 0xFFFFFFFC [] []) = some (.outOfBounds 0xFFFFFFFC .word) := by decide
/-- R208 (c): the reset state with nothing loaded meets the zero word. -/
theorem test_reset_step : raised State.reset = some (.unimplementedInstruction 0 0) := by decide
theorem test_reset_wf : State.reset.wf := by decide
/-- S4: bytes of a stored word (R34). -/
theorem test_host_ops : ((State.reset.writeWord 0x300 0xDEADBEEF).bind (·.readByte 0x303)) = .ok 0xEF ∧
    ((State.reset.writeByte 0xFFF 0x5A).bind (·.readByte 0xFFF)) = .ok 0x5A :=
  ⟨rfl, rfl⟩
/-- A word placed where the next step fetches is the instruction that step runs. -/
theorem test_withFetchWord : seen (State.reset.withFetchWord 32 0x200101FF) (regPc 1) =
    some (0x1FF, 4) := by decide

/-! ### Witnesses: states and operands that meet the hypotheses of each statement that has some -/

/-- A byte address and a word address at the end of the memory. -/
theorem witness_ResetClearsLinkAndMemory :
    (0xFFF : Word).toNat < State.reset.cfg.memCapacity ∧
    (0xFFC : Word).toNat % 4 = 0 ∧ (0xFFC : Word).toNat + 4 ≤ State.reset.cfg.memCapacity := by
  decide

/-- An image that reaches the last byte; an image one byte past it. -/
theorem witness_LaunchIsTheImageOverReset :
    (∀ p ∈ [((0 : Word), (0x20 : Byte)), (0xFFF, 0x5A), (0xFFF, 0x00)],
      p.1.toNat < Config.default.memCapacity) ∧
    (∃ p ∈ [((0 : Word), (0x20 : Byte)), (0x1000, 0x5A)],
      Config.default.memCapacity ≤ p.1.toNat) := by simp [Config.default]

/-- Instructions with destination register 0 that complete. -/
theorem witness_RegisterZeroReadsZeroAndDiscardsWrites :
    writtenReg (.add 0 1 2) = some 0 ∧ (∃ t, exec (.add 0 1 2) State.reset = .next t) ∧
    Instr.mnemonic (.add 0 1 2) ≠ .lw ∧
    writtenReg (.lw 0 0 0) = some 0 ∧ (∃ t, exec (.lw 0 0 0) State.reset = .next t) :=
  ⟨rfl, ⟨_, rfl⟩, by decide, rfl, ⟨_, rfl⟩⟩

/-- The last word of the memory, read, written and fetched. -/
theorem witness_WordsAreBigEndian :
    (∃ v, (start 4096 0xFFC [] [(0xFFC, 0xDEADBEEF)]).readWord 0xFFC = .ok v) ∧
    (∃ t, State.reset.writeWord 0xFFC 0xDEADBEEF = .ok t) ∧
    (∃ w, (start 4096 0xFFC [] [(0xFFC, 0xDEADBEEF)]).fetchWord = .ok w) :=
  ⟨⟨_, rfl⟩, ⟨_, rfl⟩, ⟨_, rfl⟩⟩

theorem witness_WriteThenReadReturnsTheWord :
    (0xFFC : Word).toNat % 4 = 0 ∧ (0xFFC : Word).toNat + 4 ≤ State.reset.cfg.memCapacity := by
  decide

theorem witness_FourBytesMakeTheWord :
    (0xFFC : Word).toNat % 4 = 0 ∧ (0xFFC : Word).toNat + 4 ≤ State.reset.cfg.memCapacity := by
  decide

/-- Stores at the end of the memory, and the bytes just below and just above a stored word. -/
theorem witness_WritesChangeOnlyTheirBytes :
    (∃ t, State.reset.writeWord 0x300 0xDEADBEEF = .ok t) ∧
    ((0x2FF : Word).toNat < (0x300 : Word).toNat) ∧
    ((0x300 : Word).toNat + 4 ≤ (0x304 : Word).toNat) ∧
    (∃ t, State.reset.writeByte 0xFFF 0x5A = .ok t) ∧ (0xFFE : Word) ≠ 0xFFF :=
  ⟨⟨_, rfl⟩, by decide, by decide, ⟨_, rfl⟩, by decide⟩

/-- Each side of each check: 0xFFC and 0xFFD for words, 0xFFF and 0x1000 for bytes. -/
theorem witness_OutOfBoundsExactlyPastTheCapacity :
    ¬ ((0xFFC : Word).toNat + 4 > State.reset.cfg.memCapacity) ∧
    (0xFFD : Word).toNat + 4 > State.reset.cfg.memCapacity ∧
    ¬ ((0xFFF : Word).toNat + 1 > State.reset.cfg.memCapacity) ∧
    (0x1000 : Word).toNat + 1 > State.reset.cfg.memCapacity := by decide

/-- Each error of each access: 0xFFD (both conditions) and 0xFFA (in bounds, misaligned). -/
theorem witness_AccessErrorsBoundsThenAlignment :
    State.reset.readWord 0xFFD = .error (.outOfBounds 0xFFD .word) ∧
    State.reset.readWord 0xFFA = .error (.misaligned 0xFFA) ∧
    (∀ v, State.reset.writeWord 0xFFD v = .error (.outOfBounds 0xFFD .word)) ∧
    (∀ v, State.reset.writeWord 0xFFA v = .error (.misaligned 0xFFA)) ∧
    State.reset.readByte 0x1000 = .error (.outOfBounds 0x1000 .byte) ∧
    (∀ b, State.reset.writeByte 0x1000 b = .error (.outOfBounds 0x1000 .byte)) :=
  ⟨rfl, rfl, fun _ => rfl, fun _ => rfl, rfl, fun _ => rfl⟩

/-- The tail of a memory of 4094 bytes (F9), and a memory of 3 bytes. -/
theorem witness_TailBytesAreByteOnly :
    (start 4094 0 [] []).cfg.memCapacity / 4 * 4 ≤ (0xFFC : Word).toNat ∧
    (0xFFD : Word).toNat < (start 4094 0 [] []).cfg.memCapacity ∧
    (start 3 0 [] []).cfg.memCapacity < 4 := by decide

/-- Immediates at both ends of their range. -/
theorem witness_EncodedInstructionDecodesToItself :
    Instr.wellFormed (.sw 31 0 0xFFFF8000) = true ∧ Instr.wellFormed (.lw 0 31 0x00007FFF) = true ∧
    Instr.wellFormed (.j 0x3FFFFFF) = true := by decide

/-- Four bytes of an instruction at the last word of the memory. -/
theorem witness_StepExecutesTheDecodedInstruction :
    let s := start 4096 0xFFC [] [(0xFFC, 0x200101FF)]
    s.pc.toNat % 4 = 0 ∧ s.readByte s.pc = .ok 0x20 ∧ s.readByte (s.pc + 1) = .ok 0x01 ∧
    s.readByte (s.pc + 2) = .ok 0x01 ∧ s.readByte (s.pc + 3) = .ok 0xFF ∧
    decodeBytes [0x20, 0x01, 0x01, 0xFF] = .ok (.addi 1 0 0x1FF, []) :=
  ⟨by decide, rfl, rfl, rfl, rfl, rfl⟩

/-- `pc` at 0xFFD, 0xFFA and 0xFFC. -/
theorem witness_FetchIsAWordReadAtPc :
    (start 4096 0xFFD [] []).pc.toNat + 4 > (start 4096 0xFFD [] []).cfg.memCapacity ∧
    (start 4096 0xFFA [] []).pc.toNat + 4 ≤ (start 4096 0xFFA [] []).cfg.memCapacity ∧
    (start 4096 0xFFA [] []).pc.toNat % 4 ≠ 0 ∧
    (start 4096 0xFFC [] []).pc.toNat + 4 ≤ (start 4096 0xFFC [] []).cfg.memCapacity ∧
    (start 4096 0xFFC [] []).pc.toNat % 4 = 0 := by decide

/-- The word of A15, which matches no row, and the zero word. -/
theorem witness_UnlistedWordRaisesUnimplemented :
    (at100 0x00221830 []).fetchWord = .ok 0x00221830 ∧
    (∀ row ∈ opcodeTable, 0x00221830#32 &&& row.mask ≠ row.pattern) ∧
    State.reset.fetchWord = .ok 0 := ⟨rfl, by decide, rfl⟩

/-- Each error of a step: of the fetch, of the decoder, and of a data access. -/
theorem witness_StepErrorsInStageOrder :
    raised (start 4096 0xFFD [] []) = some (.outOfBounds 0xFFD .word) ∧
    raised (start 4096 0xFFA [] []) = some (.misaligned 0xFFA) ∧
    raised (at100 0x00221830 []) = some (.unimplementedInstruction 0 48) ∧
    raised (at100 0x8C430000 [(2, 0xFFD)]) = some (.outOfBounds 0xFFD .word) ∧
    raised (at100 0xAC410000 [(2, 0xFFA)]) = some (.misaligned 0xFFA) := by decide

theorem witness_ErrorLeavesStateAndRepeats :
    (callStep (at100 0x8C000002 [])).2 = .error (.misaligned 2) := by decide

/-- A step from a state that meets the invariant. -/
theorem witness_StepKeepsTheInvariant :
    (at100 0xAC41FFFC [(1, 0xDEADBEEF), (2, 0x1000)]).Inv ∧
    ∃ t, step (at100 0xAC41FFFC [(1, 0xDEADBEEF), (2, 0x1000)]) = .next t :=
  ⟨by decide, ⟨_, rfl⟩⟩

/-- The largest capacity and the highest aligned start address. -/
theorem witness_ResetMeetsTheInvariant :
    Config.wf { memCapacity := 2 ^ 32, resetPc := 0xFFFFFFFC } ∧
    (0xFFFFFFFC : Word).toNat % 4 = 0 := by decide

theorem witness_LaunchMeetsTheInvariant :
    Config.default.wf ∧ Config.default.resetPc.toNat % 4 = 0 ∧
    ∃ s, launch Config.default [(0, 0x20), (1, 0x01), (2, 0x01), (0xFFF, 0xFF)] = .ok s :=
  ⟨by decide, by decide, ⟨_, rfl⟩⟩

theorem witness_RunNeverFetchesMisaligned : (at100 0x08000040 []).Inv := by decide

/-- A step that writes a register, a step that links, and a step that stores. -/
theorem witness_OneStepChangesAtMostThis :
    (∃ t, step (at100 0x200101FF []) = .next t) ∧ (∃ t, step (at100 0x0C000020 []) = .next t) ∧
    (∃ t, step (at100 0xAC410000 [(1, 0xDEADBEEF), (2, 0x300)]) = .next t) :=
  ⟨⟨_, rfl⟩, ⟨_, rfl⟩, ⟨_, rfl⟩⟩

/-- Two states that differ in register 7 and in `LR`, and an instruction that names neither. -/
theorem witness_InstructionsTouchOnlyTheirRegisters :
    let s := at100 0x00221820 [(1, 5), (2, 7)]
    let s' := (s.setReg 7 1).setLr 9
    s'.cfg = s.cfg ∧ SameMemory s s' ∧ s'.pc = s.pc ∧
    (∀ r ∈ readRegs (.add 3 1 2), s'.getReg r = s.getReg r) ∧ s' ≠ s ∧
    ∃ t, exec (.add 3 1 2) s = .next t :=
  ⟨rfl, fun _ => rfl, rfl, by decide, by decide, ⟨_, rfl⟩⟩

/-- A step of a `jal` and a step of another instruction. -/
theorem witness_OnlyJalWritesTheLinkRegister :
    (∃ t, step (at100 0x0C000020 []) = .next t) ∧ (at100 0x0C000020 []).fetchWord = .ok 0x0C000020 ∧
    (0x0C000020 : Word).toNat / 2 ^ 26 = 3 ∧
    (∃ t, step (at100 0x08000010 []) = .next t) ∧ (at100 0x08000010 []).fetchWord = .ok 0x08000010 ∧
    (0x08000010 : Word).toNat / 2 ^ 26 ≠ 3 :=
  ⟨⟨_, rfl⟩, rfl, by decide, ⟨_, rfl⟩, rfl, by decide⟩

theorem witness_StoredWordIsLoadedAndFetched :
    ∃ t, exec (.sw 1 2 0xFFFFFFFC) (at100 0xAC41FFFC [(1, 0x20030007), (2, 0x1000)]) = .next t :=
  ⟨_, rfl⟩

/-- The last word of the memory, and the bytes just below and just above a placed word. -/
theorem witness_PlacedWordIsExecutedNext :
    let s := start 4096 0xFFC [] []
    s.pc.toNat % 4 = 0 ∧ s.pc.toNat + 4 ≤ s.cfg.memCapacity ∧
    decodeWord 0x200101FF = some (.addi 1 0 0x1FF) ∧
    (0xFFB : Word).toNat < s.pc.toNat ∧ s.pc.toNat + 4 ≤ (0x1000 : Word).toNat := by decide

theorem witness_BeqBranchesWhenEqual :
    (at200 0 [(1, 7), (2, 7)]).getReg 1 = (at200 0 [(1, 7), (2, 7)]).getReg 2 ∧
    (at200 0 [(1, 7), (2, 8)]).getReg 1 ≠ (at200 0 [(1, 7), (2, 8)]).getReg 2 := by decide

theorem witness_BneBranchesWhenDifferent :
    (at200 0 [(1, 1), (2, 2)]).getReg 1 ≠ (at200 0 [(1, 1), (2, 2)]).getReg 2 ∧
    (at200 0 [(1, 2), (2, 2)]).getReg 1 = (at200 0 [(1, 2), (2, 2)]).getReg 2 := by decide

/-- 0, the most negative value, 1 and the most positive value. -/
theorem witness_BlezBranchesWhenAtMostZero :
    signed ((at200 0 []).getReg 1) ≤ 0 ∧ signed ((at200 0 [(1, 0x80000000)]).getReg 1) ≤ 0 ∧
    signed ((at200 0 [(1, 1)]).getReg 1) > 0 ∧
    signed ((at200 0 [(1, 0x7FFFFFFF)]).getReg 1) > 0 := by decide

/-- The same four values, on the other sides. -/
theorem witness_BgtzBranchesWhenAboveZero :
    signed ((at200 0 [(1, 1)]).getReg 1) > 0 ∧ signed ((at200 0 [(1, 0x7FFFFFFF)]).getReg 1) > 0 ∧
    signed ((at200 0 []).getReg 1) ≤ 0 ∧
    signed ((at200 0 [(1, 0x80000000)]).getReg 1) ≤ 0 := by decide

/-- Just below the immediate, and equal to it. -/
theorem witness_SltiComparesSigned :
    signed ((at100 0 [(1, 0xFFFF7FFF)]).getReg 1) < signed16 0x8000 ∧
    ¬ signed ((at100 0 [(1, 0xFFFF8000)]).getReg 1) < signed16 0x8000 := by decide

/-- Just below the sign-extended immediate, and equal to it. -/
theorem witness_SltiuComparesUnsigned :
    (((at100 0 [(1, 0xFFFF7FFF)]).getReg 1).toNat : Int) < signed16 0x8000 % 2 ^ 32 ∧
    ¬ (((at100 0 [(1, 0xFFFF8000)]).getReg 1).toNat : Int) < signed16 0x8000 % 2 ^ 32 := by decide

theorem witness_LuiThenOriBuildsAnyConstant : (1 : RegIdx) ≠ 0 ∧ (31 : RegIdx) ≠ 0 := by decide

/-- The effective addresses 0xFFC, 0xFFD and 0xFFA of M9, M11 and M12, and M14's wrapped one. -/
theorem witness_LwLoadsTheWord :
    effectiveAddress (at100 0 [(2, 0x1000)]) 2 (sext16 0xFFFC) = 0xFFC ∧
    (0xFFC : Word).toNat + 4 ≤ 4096 ∧ (0xFFC : Word).toNat % 4 = 0 ∧
    effectiveAddress (at100 0 [(2, 0xFFD)]) 2 (sext16 0) = 0xFFD ∧ (0xFFD : Word).toNat + 4 > 4096 ∧
    effectiveAddress (at100 0 [(2, 0xFFA)]) 2 (sext16 0) = 0xFFA ∧
    (0xFFA : Word).toNat + 4 ≤ 4096 ∧ (0xFFA : Word).toNat % 4 ≠ 0 ∧
    effectiveAddress (at100 0 [(2, 0xFFFFFFFC)]) 2 (sext16 8) = 4 ∧
    (at100 0 []).cfg.memCapacity = 4096 := by decide

/-- As for `lw`, with the bytes just below and just above the stored word. -/
theorem witness_SwStoresTheWord :
    effectiveAddress (at100 0 [(2, 0x300)]) 2 (sext16 0) = 0x300 ∧
    (0x300 : Word).toNat + 4 ≤ 4096 ∧ (0x300 : Word).toNat % 4 = 0 ∧
    (0x2FF : Word).toNat < (0x300 : Word).toNat ∧ (0x300 : Word).toNat + 4 ≤ (0x304 : Word).toNat ∧
    effectiveAddress (at100 0 [(2, 0xFFD)]) 2 (sext16 0) = 0xFFD ∧ (0xFFD : Word).toNat + 4 > 4096 ∧
    effectiveAddress (at100 0 [(2, 0x300)]) 2 (sext16 2) = 0x302 ∧
    (0x302 : Word).toNat + 4 ≤ 4096 ∧ (0x302 : Word).toNat % 4 ≠ 0 ∧
    (at100 0 []).cfg.memCapacity = 4096 := by decide

end Sys2Proof.Tests
end

/-! PROOFS of the statements of 00_scope.md: the invariant of the state (R5, R15, R17). -/

namespace Sys2Proof.Machine

/-! ### Alignment of the destinations -/

/-- A branch displacement is a multiple of 4: it is a shift by two (R67). -/
theorem branchOffset_toNat_mod_four (imm : Word) : (branchOffset imm).toNat % 4 = 0 := by
  rw [branchOffset, BitVec.toNat_shiftLeft, Nat.shiftLeft_eq]
  omega

/-- A branch goes to an aligned address, taken or not, when it stands at one (R130). -/
theorem branchDest_toNat_mod_four {s : State} (h : s.pcAligned) (taken : Bool) (imm : Word) :
    (branchDest s taken imm).toNat % 4 = 0 := by
  have hnpc := State.npc_mod_four h
  cases taken with
  | false => exact hnpc
  | true =>
    have hoff := branchOffset_toNat_mod_four imm
    show (s.npc + branchOffset imm).toNat % 4 = 0
    rw [BitVec.toNat_add]
    omega

/-- A jump goes to an aligned address from anywhere: its two lowest bits are zero (R120). -/
theorem jumpDest_toNat_mod_four (s : State) (target : BitVec 26) :
    (jumpDest s target).toNat % 4 = 0 := by
  rw [jumpDest, BitVec.toNat_append, Nat.shiftLeft_eq, BitVec.toNat_ofNat, Nat.zero_mod, Nat.or_zero]
  exact Nat.mul_mod_left _ _

/-! ### The invariant, kept by each way an instruction can end -/

/-- Only a store touches the memory, and it stores inside the capacity (R39). -/
theorem NextForm.wf {s t : State} {i : Instr} (h : NextForm s i t) (hs : s.wf) : t.wf := by
  cases h with
  | wrote v hd => simpa [State.wf] using hs
  | jumped target => exact hs
  | linked target => exact hs
  | branched taken imm hd hi => exact hs
  | stored rt rs imm hb ha =>
    obtain ⟨hcap, hmem⟩ := hs
    exact ⟨hcap, Memory.wf_setWord hmem _ hb⟩

/-- The next program counter is `npc`, a branch destination or a jump destination (R15). -/
theorem NextForm.pcAligned {s t : State} {i : Instr} (h : NextForm s i t) (hs : s.pcAligned) :
    t.pcAligned := by
  cases h with
  | wrote v hd => exact State.npc_mod_four hs
  | jumped target => exact jumpDest_toNat_mod_four s target
  | linked target => exact jumpDest_toNat_mod_four s target
  | branched taken imm hd hi => exact branchDest_toNat_mod_four hs taken imm
  | stored rt rs imm hb ha => exact State.npc_mod_four hs

/-- A step that completes ends in one of the forms of a next state, of the instruction it decoded. -/
theorem step_nextForm {s t : State} (h : step s = .next t) : ∃ i, NextForm s i t := by
  obtain ⟨w, i, -, -, hexec⟩ := step_eq_next.1 h
  exact ⟨i, exec_nextForm hexec⟩

theorem State.resetOf_inv {c : Config} (hc : c.wf) (hpc : c.resetPc.toNat % 4 = 0) :
    (State.resetOf c).Inv :=
  ⟨State.resetOf_wf hc, hpc⟩

/-- Settles O23: each form of a next state keeps both halves of the invariant. -/
theorem stepKeepsTheInvariant : Obligations.StepKeepsTheInvariant := by
  intro s t h
  obtain ⟨i, hform⟩ := step_nextForm h
  exact ⟨hform.wf, hform.pcAligned, fun ⟨hwf, hpc⟩ => ⟨hform.wf hwf, hform.pcAligned hpc⟩⟩

/-- Settles O24: the reset memory is empty, and the program counter is the start address. -/
theorem resetMeetsTheInvariant : Obligations.ResetMeetsTheInvariant :=
  ⟨fun _ => State.resetOf_inv, State.reset_wf, rfl⟩

end Sys2Proof.Machine

/-! PROOFS of the statements of 10_state.md: reset, register 0, the link register, the registers an
instruction names, and the program counter along a run. -/

namespace Sys2Proof.Machine

/-! ### The state after reset (R21 to R24, R200) -/

@[simp] theorem State.getReg_resetOf (c : Config) (r : RegIdx) :
    (State.resetOf c).getReg r = 0 := by
  unfold State.getReg
  split
  · rfl
  · exact Vector.getElem_replicate _

/-- The bytes of an empty array make the zero word. -/
@[simp] theorem Memory.getWord_nil (a : Nat) : Memory.getWord [] a = 0 :=
  show wordOfBytes 0 0 0 0 = 0 by decide

/-- Settles O1: the register file of the reset state is all zero. -/
theorem resetClearsRegistersAndStartsAtResetPc :
    Obligations.ResetClearsRegistersAndStartsAtResetPc :=
  ⟨fun c => ⟨State.getReg_resetOf c, rfl⟩, fun s => ⟨State.getReg_resetOf s.cfg, rfl⟩⟩

/-- Settles O2: the array of the reset state is empty, and an access that passes its checks reads
the fill from it. -/
theorem resetClearsLinkAndMemory : Obligations.ResetClearsLinkAndMemory := by
  intro s
  refine ⟨rfl, rfl, fun a hbound => ?_, fun a haligned hbound => ?_⟩
  · exact State.readByte_eq_ok.2 ⟨hbound, rfl⟩
  · exact State.readWord_eq_ok.2 ⟨⟨hbound, haligned⟩, (Memory.getWord_nil _).symm⟩

/-! ### Which instructions complete, and what they leave -/

/-- An instruction that makes no data access completes in every state (R188). -/
theorem exec_completes {i : Instr} (hlw : i.mnemonic ≠ .lw) (hsw : i.mnemonic ≠ .sw) (s : State) :
    ∃ t, exec i s = .next t := by
  cases h : exec i s with
  | next t => exact ⟨t, rfl⟩
  | fault e =>
    obtain ⟨rt, rs, imm, rfl | rfl, -⟩ := exec_eq_fault h
    · exact absurd rfl hlw
    · exact absurd rfl hsw
  | refused r => exact absurd h (exec_ne_refused i s r)

/-- A `lw` fails exactly as its access does, whatever its destination (R160, D24). -/
theorem exec_lw_eq_fault {rt rs : RegIdx} {imm : Word} {s : State} {e : Fault} :
    exec (.lw rt rs imm) s = .fault e ↔ s.readWord (effectiveAddress s rs imm) = .error e := by
  refine orRaise_eq_fault.trans (or_iff_left ?_)
  rintro ⟨v, -, hv⟩
  cases hv

/-- `jal` and `sw` have no destination register (R20). -/
theorem mnemonic_ne_of_writtenReg {i : Instr} {d : RegIdx} (hd : writtenReg i = some d) :
    i.mnemonic ≠ .jal ∧ i.mnemonic ≠ .sw := by
  cases i
  case jal | sw => cases hd
  all_goals exact ⟨nofun, nofun⟩

/-- An instruction with a destination register ends by writing it. -/
theorem NextForm.eq_of_writtenReg {s t : State} {i : Instr} {d : RegIdx} (h : NextForm s i t)
    (hd : writtenReg i = some d) : ∃ v, t = (s.setReg d v).setPc s.npc := by
  cases h with
  | wrote v hd' => exact ⟨v, by rw [Option.some.inj (hd.symm.trans hd')]⟩
  | branched taken imm hnone => rw [hd] at hnone; cases hnone
  | jumped | linked | stored => cases hd

/-- A register outside the instruction's row keeps its value (R20). -/
theorem NextForm.getReg_eq {s t : State} {i : Instr} (h : NextForm s i t) {r : RegIdx}
    (hr : writtenReg i ≠ some r) : t.getReg r = s.getReg r := by
  cases h with
  | @wrote _ d v hd =>
    have hne : r ≠ d := fun e => hr (e ▸ hd)
    exact State.getReg_setReg_ne s r d v hne
  | jumped | linked | branched | stored => rfl

/-- Only `jal` links (R16). -/
theorem NextForm.lr_eq {s t : State} {i : Instr} (h : NextForm s i t) (hi : i.mnemonic ≠ .jal) :
    t.lr = s.lr := by
  cases h with
  | wrote v hd => exact State.setReg_lr s _ v
  | linked target => exact absurd rfl hi
  | jumped | branched | stored => rfl

/-! ### Register 0 (R11) -/

@[simp] theorem State.getReg_zero (s : State) : s.getReg 0 = 0 := rfl

@[simp] theorem State.setReg_zero (s : State) (v : Word) : s.setReg 0 v = s := rfl

theorem wentTo_npc (s : State) : WentTo s (s.setPc s.npc) (nextAddress s) :=
  ⟨State.npc_toNat s, (wentTo_setPc s s.npc).2⟩

/-- Settles O5: an instruction with destination register 0 ends by a write that is discarded; of
these only `lw` makes an access, and its checks do not look at the destination. -/
theorem registerZeroReadsZeroAndDiscardsWrites :
    Obligations.RegisterZeroReadsZeroAndDiscardsWrites := by
  refine ⟨State.getReg_zero, State.setReg_zero, fun i s t hd h => ?_, fun i s hd hlw => ?_,
    fun s rs rt imm e => exec_lw_eq_fault.trans exec_lw_eq_fault.symm⟩
  · obtain ⟨v, rfl⟩ := (exec_nextForm h).eq_of_writtenReg hd
    exact wentTo_npc s
  · exact exec_completes hlw (mnemonic_ne_of_writtenReg hd).2 s

/-! ### Which word is a `jal` (R71, R122) -/

theorem opField_toNat (w : Word) : (opField w).toNat = w.toNat / 2 ^ 26 := by
  have hlt := w.isLt
  rw [opField, BitVec.extractLsb'_toNat, Nat.shiftRight_eq_div_pow, Nat.mod_eq_of_lt (by omega)]

/-- No function code selects a `jal`. -/
theorem selectRType_mnemonic_ne_jal {d : DecodedInstruction} {i : Instr}
    (h : selectRType d = some i) : i.mnemonic ≠ .jal := by
  unfold selectRType at h
  split at h <;> cases h <;> simp [Instr.mnemonic]

/-- Opcode 3 is `jal`, and no other opcode is. -/
theorem selectInstr_mnemonic_eq_jal {d : DecodedInstruction} {i : Instr}
    (h : selectInstr d = some i) : i.mnemonic = .jal ↔ d.op.toNat = 3 := by
  unfold selectInstr at h
  split at h
  case h_1 hop => exact iff_of_false (selectRType_mnemonic_ne_jal h) (by simp [hop])
  case h_18 => cases h
  all_goals cases h; simp [Instr.mnemonic, *]

theorem decodeWord_mnemonic_eq_jal {w : Word} {i : Instr} (h : decodeWord w = some i) :
    i.mnemonic = .jal ↔ w.toNat / 2 ^ 26 = 3 :=
  opField_toNat w ▸ selectInstr_mnemonic_eq_jal h

/-- A `jal` completes in the state that links and jumps. -/
theorem NextForm.eq_of_jal {s t : State} {i : Instr} (h : NextForm s i t) (hi : i.mnemonic = .jal) :
    ∃ target, t = (s.setLr s.npc).setPc (jumpDest s target) := by
  cases h with
  | wrote v hd => exact absurd hi (mnemonic_ne_of_writtenReg hd).1
  | linked target => exact ⟨target, rfl⟩
  | branched taken imm hnone hmem => simp [hi] at hmem
  | jumped | stored => cases hi

/-- Settles O30: the opcode tells whether the executed instruction is a `jal`; a `jal` links `npc`,
and any other instruction leaves the link register. -/
theorem onlyJalWritesTheLinkRegister : Obligations.OnlyJalWritesTheLinkRegister := by
  intro s t h w hw
  obtain ⟨w', i, hw', hdecode, hexec⟩ := step_eq_next.1 h
  obtain rfl : w = w' := Except.ok.inj (hw.symm.trans hw')
  have hform := exec_nextForm hexec
  have hjal := decodeWord_mnemonic_eq_jal hdecode
  refine ⟨fun hop => ?_, fun hop => hform.lr_eq (mt hjal.1 hop)⟩
  obtain ⟨target, rfl⟩ := hform.eq_of_jal (hjal.2 hop)
  exact ⟨State.npc_toNat s, fun _ => rfl⟩

/-! ### Runs -/

/-- No step is refused. -/
theorem step_ne_refused (s : State) (r : Refusal) : step s ≠ .refused r := by
  intro h
  obtain ⟨w, -, hw⟩ := orRaise_eq_refused.1 (show orRaise _ _ = _ from h)
  split at hw
  · exact exec_ne_refused _ s r hw
  · cases hw

/-- A run goes on from the state a completed step gives. -/
theorem runSteps_succ_of_next {s t : State} (h : step s = .next t) (n : Nat) :
    runSteps (n + 1) s = runSteps n t := by
  simp [runSteps, callStep, h]

/-- A run ends at the first error, in the state before it (R96, R176). -/
theorem runSteps_succ_of_fault {s : State} {e : Fault} (h : step s = .fault e) (n : Nat) :
    runSteps (n + 1) s = (s, .error e) := by
  simp [runSteps, callStep, h]

/-- What every completed step keeps, every run keeps. -/
theorem runSteps_invariant {P : State → Prop} (hstep : ∀ s t, step s = .next t → P s → P t)
    (n : Nat) (s : State) (hs : P s) : P (runSteps n s).1 := by
  induction n generalizing s with
  | zero => exact hs
  | succ n ih =>
    cases h : step s with
    | next t => rw [runSteps_succ_of_next h]; exact ih t (hstep s t h hs)
    | fault e => rw [runSteps_succ_of_fault h]; exact hs
    | refused r => exact absurd h (step_ne_refused s r)

/-- A fetch at a multiple of 4 is not misaligned (R37, R172). -/
theorem fetchesAligned_of_pcAligned {s : State} (h : s.pcAligned) : FetchesAligned s := by
  intro a hfetch
  rcases accessFault_word_eq_some.1 (State.readWord_eq_error.1 hfetch) with
    ⟨-, he⟩ | ⟨-, hmis, -⟩
  · cases he
  · exact hmis h

/-- Settles O26: every step keeps the invariant, so every run does, and the invariant has an aligned
program counter. -/
theorem runNeverFetchesMisaligned : Obligations.RunNeverFetchesMisaligned := by
  intro n s hs
  have hinv : (runSteps n s).1.Inv :=
    runSteps_invariant (P := State.Inv) (fun s t h => (stepKeepsTheInvariant s t h).2.2) n s hs
  exact ⟨hinv, fetchesAligned_of_pcAligned hinv.2⟩

/-! ### Two executions side by side

The statements about what cannot be observed compare an instruction in two states. The outcomes are
compared by a relation on the next states; errors have to be the same. -/

/-- Two outcomes of one kind: the same error, or next states that `R` relates. -/
inductive OutcomeRel (R : State → State → Prop) :
    Host.Outcome State Fault Refusal → Host.Outcome State Fault Refusal → Prop
  | next {t t'} (h : R t t') : OutcomeRel R (.next t) (.next t')
  | fault (e) : OutcomeRel R (.fault e) (.fault e)
  | refused (r) : OutcomeRel R (.refused r) (.refused r)

namespace OutcomeRel

variable {R : State → State → Prop} {o o' : Host.Outcome State Fault Refusal}

theorem fault_iff (h : OutcomeRel R o o') (e : Fault) : o = .fault e ↔ o' = .fault e := by
  cases h <;> simp

theorem exists_next (h : OutcomeRel R o o') {t : State} (ht : o = .next t) :
    ∃ t', o' = .next t' ∧ R t t' := by
  cases h with
  | next h => cases ht; exact ⟨_, rfl, h⟩
  | fault e => cases ht
  | refused r => cases ht

/-- Two accesses at one address under one capacity both fail, with the same error, or both go on. -/
theorem orRaise_checked {α : Type} {s s' : State} {a : Word} {size : AccessSize} {v v' : α}
    {k k' : α → Host.Outcome State Fault Refusal} (hcfg : s'.cfg = s.cfg)
    (h : accessFault s.cfg.memCapacity a size = none → OutcomeRel R (k v) (k' v')) :
    OutcomeRel R (orRaise (checked s a size v) k) (orRaise (checked s' a size v') k') := by
  unfold checked
  rw [hcfg]
  cases hf : accessFault s.cfg.memCapacity a size with
  | some e => exact .fault e
  | none => exact h hf

end OutcomeRel

/-! ### The link register cannot be observed (R16) -/

/-- `t'` is `t` but for the link register. -/
def DiffersInLr (t t' : State) : Prop := ∃ l, t' = t.setLr l

theorem writeBack_differsInLr (d : RegIdx) (x : Word) (s : State) (v : Word) :
    OutcomeRel DiffersInLr (writeBack d x s) (writeBack d x (s.setLr v)) :=
  .next ⟨v, by rw [State.setReg_setLr]; rfl⟩

theorem transfer_differsInLr (a : Word) (s : State) (v : Word) :
    OutcomeRel DiffersInLr (transfer a s) (transfer a (s.setLr v)) :=
  .next ⟨v, rfl⟩

/-- No instruction reads the link register: what it does with one it does with another. -/
theorem exec_differsInLr (i : Instr) (s : State) (v : Word) :
    OutcomeRel DiffersInLr (exec i s) (exec i (s.setLr v)) := by
  cases i
  case lw rt rs imm =>
    exact .orRaise_checked rfl fun _ => writeBack_differsInLr rt _ s v
  case sw rt rs imm =>
    exact .orRaise_checked rfl fun _ =>
      transfer_differsInLr s.npc (s.setMem (s.mem.setWord _ (s.getReg rt))) v
  case jal target => exact .next ⟨s.npc, rfl⟩
  case j | beq | bne | blez | bgtz => exact transfer_differsInLr _ s v
  all_goals exact writeBack_differsInLr _ _ s v

theorem step_differsInLr (s : State) (v : Word) :
    OutcomeRel DiffersInLr (step s) (step (s.setLr v)) := by
  refine .orRaise_checked rfl fun _ => ?_
  simp only [State.setLr_mem, State.setLr_pc]
  cases decodeWord (s.mem.getWord s.pc.toNat) with
  | some i => exact exec_differsInLr i s v
  | none => exact .fault _

/-- Settles O29: a step of two states that differ in the link register leaves states that differ in
it alone, or raises one error; by induction a run does. -/
theorem linkRegisterIsNeverObserved : Obligations.LinkRegisterIsNeverObserved := by
  intro n
  induction n with
  | zero => exact fun s v => ⟨rfl, v, rfl⟩
  | succ n ih =>
    intro s v
    have hrel := step_differsInLr s v
    cases h : step s with
    | next t =>
      obtain ⟨_, h', l, rfl⟩ := hrel.exists_next h
      rw [runSteps_succ_of_next h, runSteps_succ_of_next h']
      exact ih t l
    | fault e =>
      rw [runSteps_succ_of_fault h, runSteps_succ_of_fault ((hrel.fault_iff e).1 h)]
      exact ⟨rfl, v, rfl⟩
    | refused r => exact absurd h (step_ne_refused s r)

/-! ### Memories that read the same -/

/-- The array holds the same byte at each address that can be read. -/
theorem SameMemory.get_eq {s s' : State} (h : SameMemory s s') {a : Word}
    (ha : a.toNat + 1 ≤ s.cfg.memCapacity) : s'.mem.get a.toNat = s.mem.get a.toNat := by
  have hread : s'.readByte a = .ok (s.mem.get a.toNat) :=
    (h a).trans (State.readByte_eq_ok.2 ⟨ha, rfl⟩)
  exact (State.readByte_eq_ok.1 hread).2.symm

/-- The array holds the same word at each address a word can be read from. -/
theorem SameMemory.getWord_eq {s s' : State} (h : SameMemory s s') {a : Word}
    (ha : accessFault s.cfg.memCapacity a .word = none) :
    s'.mem.getWord a.toNat = s.mem.getWord a.toNat := by
  obtain ⟨hbound, haligned⟩ := accessFault_eq_none.1 ha
  simp only [AccessSize.bytes] at hbound
  have h1 := toNat_add_one_of_aligned (haligned rfl)
  have h2 := toNat_add_two_of_aligned (haligned rfl)
  have h3 := toNat_add_three_of_aligned (haligned rfl)
  simp only [Memory.getWord, ← h1, ← h2, ← h3]
  rw [h.get_eq (by omega), h.get_eq (by omega), h.get_eq (by omega), h.get_eq (by omega)]

/-- Storing one word in both keeps two memories the same. -/
theorem SameMemory.setWord {s s' : State} (h : SameMemory s s') (hcfg : s'.cfg = s.cfg)
    (a v : Word) : SameMemory (s.setMem (s.mem.setWord a.toNat v))
      (s'.setMem (s'.mem.setWord a.toNat v)) := by
  intro b
  rw [State.readByte_setWord, State.readByte_setWord, h b]
  simp only [checked, hcfg]

/-! ### An instruction depends on the registers of its row alone (R20) -/

/-- `s` and `s'` look the same to an instruction that reads the registers `rs`. -/
structure SameInputs (rs : List RegIdx) (s s' : State) : Prop where
  cfg : s'.cfg = s.cfg
  mem : SameMemory s s'
  pc : s'.pc = s.pc
  regs : ∀ r ∈ rs, s'.getReg r = s.getReg r

/-- `t` and `t'` show the same effect of the instruction `i`. -/
structure SameEffect (i : Instr) (t t' : State) : Prop where
  pc : t'.pc = t.pc
  mem : SameMemory t t'
  reg : ∀ d, writtenReg i = some d → t'.getReg d = t.getReg d
  lr : i.mnemonic = .jal → t'.lr = t.lr

section TwoStates

variable {rs : List RegIdx} {i : Instr} {s s' : State}

theorem SameInputs.npc_eq (h : SameInputs rs s s') : s'.npc = s.npc :=
  congrArg (· + 4) h.pc

theorem SameInputs.branchDest_eq (h : SameInputs rs s s') (taken : Bool) (imm : Word) :
    branchDest s' taken imm = branchDest s taken imm := by
  simp only [branchDest, h.npc_eq]

theorem SameInputs.jumpDest_eq (h : SameInputs rs s s') (target : BitVec 26) :
    jumpDest s' target = jumpDest s target := by
  simp only [jumpDest, h.npc_eq]

/-- The same value written to the destination is the same effect. -/
theorem SameInputs.writeBack (h : SameInputs rs s s') {d : RegIdx} {v v' : Word}
    (hd : writtenReg i = some d) (hv : v' = v) :
    OutcomeRel (SameEffect i) (writeBack d v s) (writeBack d v' s') := by
  obtain ⟨hreg, -, -, -, hmem, -⟩ := wroteReg_writeBack s d v
  obtain ⟨hreg', -, -, -, hmem', -⟩ := wroteReg_writeBack s' d v'
  refine .next ⟨h.npc_eq, fun b => ?_, fun d' hd' => ?_,
    fun hjal => absurd hjal (mnemonic_ne_of_writtenReg hd).1⟩
  · rw [hmem', hmem, h.mem]
  · obtain rfl : d = d' := Option.some.inj (hd.symm.trans hd')
    rw [hreg', hreg, hv]

/-- The same destination is the same effect of an instruction that only moves the program counter. -/
theorem SameInputs.transfer (h : SameInputs rs s s') {a a' : Word} (hd : writtenReg i = none)
    (hi : i.mnemonic ≠ .jal) (ha : a' = a) :
    OutcomeRel (SameEffect i) (transfer a s) (transfer a' s') :=
  .next ⟨ha, h.mem, fun _ hd' => (nomatch hd.symm.trans hd'),
    fun hjal => absurd hjal hi⟩

end TwoStates

/-- What an instruction does follows from the registers it reads, the program counter and memory. -/
theorem exec_sameEffect {i : Instr} {s s' : State} (h : SameInputs (readRegs i) s s') :
    OutcomeRel (SameEffect i) (exec i s) (exec i s') := by
  have hreg := h.regs
  cases i
  all_goals simp only [readRegs, List.mem_cons, List.not_mem_nil, or_false, forall_eq_or_imp,
    forall_eq] at hreg
  case add | addu | sub | subu => exact h.writeBack rfl (by rw [hreg.1, hreg.2])
  case addi | addiu | slti | sltiu | andi | ori | xori => exact h.writeBack rfl (by rw [hreg])
  case lui => exact h.writeBack rfl rfl
  case j target => exact h.transfer rfl nofun (h.jumpDest_eq target)
  case jal target => exact .next ⟨h.jumpDest_eq target, h.mem, nofun, fun _ => h.npc_eq⟩
  case beq | bne => exact h.transfer rfl nofun (by rw [h.branchDest_eq, hreg.1, hreg.2])
  case blez | bgtz => exact h.transfer rfl nofun (by rw [h.branchDest_eq, hreg])
  case lw rt rs imm =>
    have hea : effectiveAddress s' rs imm = effectiveAddress s rs imm := congrArg (· + imm) hreg
    show OutcomeRel _ _ (orRaise (s'.readWord (effectiveAddress s' rs imm)) _)
    rw [hea]
    exact .orRaise_checked h.cfg fun hpass => h.writeBack rfl (h.mem.getWord_eq hpass)
  case sw rt rs imm =>
    obtain ⟨hrs, hrt⟩ := hreg
    have hea : effectiveAddress s' rs imm = effectiveAddress s rs imm := congrArg (· + imm) hrs
    show OutcomeRel _ _ (orRaise (s'.writeWord (effectiveAddress s' rs imm) (s'.getReg rt)) _)
    rw [hea, hrt]
    exact .orRaise_checked h.cfg fun _ =>
      .next ⟨h.npc_eq, h.mem.setWord h.cfg _ _, nofun, nofun⟩

/-- Settles O28: the form of the next state names the registers written, and the instruction in two
states that look the same to it has the same outcome. -/
theorem instructionsTouchOnlyTheirRegisters : Obligations.InstructionsTouchOnlyTheirRegisters := by
  refine ⟨fun i s t h => ?_, fun i s s' hcfg hmem hpc hregs => ?_⟩
  · have hform := exec_nextForm h
    exact ⟨fun r hr => hform.getReg_eq hr, fun hi => hform.lr_eq hi⟩
  · have hrel := exec_sameEffect (i := i) ⟨hcfg, hmem, hpc, hregs⟩
    refine ⟨hrel.fault_iff, fun t ht => ?_⟩
    obtain ⟨t', ht', heffect⟩ := hrel.exists_next ht
    exact ⟨t', ht', heffect.pc, heffect.mem, heffect.reg, heffect.lr⟩

end Sys2Proof.Machine

/-! PROOFS of the statements of 20_memory.md: the access checks, words and their bytes, the four
memory operations, and the fetch. -/

namespace Sys2Proof.Machine

/-! ### The errors of an access (R36 to R39) -/

/-- A byte read fails exactly past the capacity (R37: it is never misaligned). -/
theorem State.readByte_eq_error {s : State} {a : Word} {e : Fault} :
    s.readByte a = .error e ↔ a.toNat + 1 > s.cfg.memCapacity ∧ e = .outOfBounds a .byte :=
  checked_eq_error.trans accessFault_byte_eq_some

/-- A byte write fails exactly past the capacity. -/
theorem State.writeByte_eq_error {s : State} {a : Word} {v : Byte} {e : Fault} :
    s.writeByte a v = .error e ↔ a.toNat + 1 > s.cfg.memCapacity ∧ e = .outOfBounds a .byte :=
  checked_eq_error.trans accessFault_byte_eq_some

/-- Settles O11: each operation fails as its checks say, and these are one function of the capacity,
the address and the size. -/
theorem accessErrorsBoundsThenAlignment : Obligations.AccessErrorsBoundsThenAlignment :=
  fun _ _ _ _ _ => ⟨State.readWord_eq_error.trans accessFault_word_eq_some,
    State.writeWord_eq_error.trans accessFault_word_eq_some,
    State.readByte_eq_error, State.writeByte_eq_error⟩

/-- An access of either size raises `OutOfBounds` exactly when its bytes pass the capacity. -/
theorem checked_outOfBounds_iff {α : Type} (s : State) (a : Word) (size : AccessSize) (v : α) :
    (∃ e, checked s a size v = .error e ∧ e.name = .outOfBounds) ↔
      a.toNat + size.bytes > s.cfg.memCapacity := by
  simp only [checked_eq_error]
  rcases accessFault_eq s.cfg.memCapacity a size with ⟨h, hf⟩ | ⟨h, -, -, hf⟩ | ⟨h, -, hf⟩
  · exact iff_of_true ⟨_, hf, rfl⟩ h
  · simp [hf, Fault.name, h]
  · simp [hf, h]

/-- Settles O10: the four operations make one check of bounds, with sizes 4 and 1. -/
theorem outOfBoundsExactlyPastTheCapacity : Obligations.OutOfBoundsExactlyPastTheCapacity :=
  fun s a _ _ => ⟨checked_outOfBounds_iff s a .word _, checked_outOfBounds_iff s a .word _,
    checked_outOfBounds_iff s a .byte _, checked_outOfBounds_iff s a .byte _⟩

/-! ### The fetch (R40, R51) -/

/-- A step whose fetch does not pass its checks raises their error (R175). -/
theorem step_eq_fault_of_fetch {s : State} {e : Fault}
    (h : accessFault s.cfg.memCapacity s.pc .word = some e) : step s = .fault e :=
  step_eq_fault.2 (.inl (State.readWord_eq_error.2 h))

/-- A word access past the capacity raises `OutOfBounds`, aligned or not (D4). -/
theorem accessFault_word_of_gt {cap : Nat} {a : Word} (h : a.toNat + 4 > cap) :
    accessFault cap a .word = some (.outOfBounds a .word) :=
  accessFault_word_eq_some.2 (.inl ⟨h, rfl⟩)

/-- A word access in bounds at no multiple of 4 raises `Misaligned`. -/
theorem accessFault_word_of_misaligned {cap : Nat} {a : Word} (hbound : a.toNat + 4 ≤ cap)
    (h : a.toNat % 4 ≠ 0) : accessFault cap a .word = some (.misaligned a) :=
  accessFault_word_eq_some.2 (.inr ⟨hbound, h, rfl⟩)

/-- Settles O18: the fetch is the word read at `pc`, and a step raises the error of its fetch. -/
theorem fetchIsAWordReadAtPc : Obligations.FetchIsAWordReadAtPc := by
  intro s
  refine ⟨rfl, fun hpast => ?_, fun hbound hmis => ?_, fun hbound haligned => ?_⟩
  · exact ⟨_, step_eq_fault_of_fetch (accessFault_word_of_gt hpast), rfl⟩
  · exact ⟨_, step_eq_fault_of_fetch (accessFault_word_of_misaligned hbound hmis), rfl⟩
  · exact ⟨_, State.readWord_eq_ok.2 ⟨⟨hbound, haligned⟩, rfl⟩⟩

/-- Settles O12: less than four bytes remain from the last multiple of 4 on, and in a memory of less
than four bytes there is no word at all. -/
theorem tailBytesAreByteOnly : Obligations.TailBytesAreByteOnly := by
  refine ⟨fun s a w htail hlt => ?_, fun s hcap => ?_⟩
  · have hfault := accessFault_word_of_gt (show a.toNat + 4 > s.cfg.memCapacity by omega)
    exact ⟨State.readWord_eq_error.2 hfault, State.writeWord_eq_error.2 hfault,
      _, State.readByte_eq_ok.2 ⟨hlt, rfl⟩⟩
  · exact step_eq_fault_of_fetch (accessFault_word_of_gt (by omega))

/-! ### A word and its four bytes (R33, R34) -/

/-- The bytes at an address where a word can be accessed are all readable: they lie in the array at
consecutive addresses. -/
theorem State.readByte_add_of_aligned {s : State} {a : Word}
    (hbound : a.toNat + 4 ≤ s.cfg.memCapacity) (haligned : a.toNat % 4 = 0) {k : Nat} (hk : k < 4) :
    s.readByte (a + BitVec.ofNat 32 k) = .ok (s.mem.get (a.toNat + k)) := by
  have hsum := toNat_add_of_aligned haligned hk
  exact State.readByte_eq_ok.2 ⟨by omega, by rw [hsum]⟩

/-- A word read gives the value of the four bytes it reads, the first the most significant. -/
theorem State.readWord_bytes {s : State} {a v : Word} (h : s.readWord a = .ok v) :
    ∃ b0 b1 b2 b3 : Byte, s.readByte a = .ok b0 ∧ s.readByte (a + 1) = .ok b1 ∧
      s.readByte (a + 2) = .ok b2 ∧ s.readByte (a + 3) = .ok b3 ∧
      v.toNat = b0.toNat * 2 ^ 24 + b1.toNat * 2 ^ 16 + b2.toNat * 2 ^ 8 + b3.toNat := by
  obtain ⟨⟨hbound, haligned⟩, rfl⟩ := State.readWord_eq_ok.1 h
  have hread {k : Nat} (hk : k < 4) := State.readByte_add_of_aligned hbound haligned hk
  exact ⟨_, _, _, _, by simpa using hread (k := 0) (by decide), hread (k := 1) (by decide),
    hread (k := 2) (by decide), hread (k := 3) (by decide), toNat_wordOfBytes _ _ _ _⟩

/-- A word write leaves the bytes of the word at its address and the three after it. -/
theorem State.readByte_add_of_writeWord {s t : State} {a v : Word} (h : s.writeWord a v = .ok t)
    {k : Nat} (hk : k < 4) : t.readByte (a + BitVec.ofNat 32 k) = .ok (byteOfWord v k) := by
  obtain ⟨⟨hbound, haligned⟩, rfl⟩ := State.writeWord_eq_ok.1 h
  have hread := State.readByte_add_of_aligned (s := s.setMem (s.mem.setWord a.toNat v))
    hbound haligned hk
  rw [hread, State.setMem_mem, Memory.get_setWord, if_pos (by omega), Nat.add_sub_cancel_left]

/-- Settles O6: a read composes a word of its bytes, a write stores each byte in its place, and the
fetch is a read. -/
theorem wordsAreBigEndian : Obligations.WordsAreBigEndian := by
  refine ⟨fun s a v h => State.readWord_bytes h, fun s t a v h => ?_,
    fun s w h => State.readWord_bytes h⟩
  have hread {k : Nat} (hk : k < 4) := State.readByte_add_of_writeWord h hk
  exact ⟨by simpa [byteOfWord] using hread (k := 0) (by decide), hread (k := 1) (by decide),
    hread (k := 2) (by decide), hread (k := 3) (by decide)⟩

/-! ### Reads after writes (R35, R39, R43, R44) -/

/-- A word write in bounds and aligned succeeds, and replaces the memory array alone (R39). -/
theorem State.writeWord_ok {s : State} {a : Word} (v : Word)
    (hbound : a.toNat + 4 ≤ s.cfg.memCapacity) (haligned : a.toNat % 4 = 0) :
    s.writeWord a v = .ok (s.setMem (s.mem.setWord a.toNat v)) :=
  State.writeWord_eq_ok.2 ⟨⟨hbound, haligned⟩, rfl⟩

/-- The word written is the word read at its address. -/
theorem State.readWord_of_writeWord {s t : State} {a v : Word} (h : s.writeWord a v = .ok t) :
    t.readWord a = .ok v := by
  obtain ⟨hchecks, rfl⟩ := State.writeWord_eq_ok.1 h
  exact State.readWord_eq_ok.2 ⟨hchecks, (Memory.getWord_setWord _ _ _).symm⟩

/-- Settles O7: the write passes its checks, and the array gives back what was stored. -/
theorem writeThenReadReturnsTheWord : Obligations.WriteThenReadReturnsTheWord := by
  intro s a v haligned hbound
  have hwrite := State.writeWord_ok v hbound haligned
  exact ⟨_, hwrite, State.readWord_of_writeWord hwrite⟩

/-- A word write leaves every byte outside the word. -/
theorem State.readByte_of_writeWord_outside {s t : State} {a v b : Word}
    (h : s.writeWord a v = .ok t) (hb : b.toNat < a.toNat ∨ a.toNat + 4 ≤ b.toNat) :
    t.readByte b = s.readByte b := by
  obtain ⟨-, rfl⟩ := State.writeWord_eq_ok.1 h
  rw [State.readByte_setWord, if_neg (by omega)]

/-- A byte write is read back. -/
theorem State.readByte_of_writeByte {s t : State} {a : Word} {v : Byte}
    (h : s.writeByte a v = .ok t) : t.readByte a = .ok v := by
  obtain ⟨hbound, rfl⟩ := State.writeByte_eq_ok.1 h
  exact State.readByte_eq_ok.2 ⟨hbound, (Memory.get_set_self _ _ _).symm⟩

/-- A byte write leaves every other byte. -/
theorem State.readByte_of_writeByte_ne {s t : State} {a b : Word} {v : Byte}
    (h : s.writeByte a v = .ok t) (hb : b ≠ a) : t.readByte b = s.readByte b := by
  obtain ⟨-, rfl⟩ := State.writeByte_eq_ok.1 h
  have hne : b.toNat ≠ a.toNat := mt BitVec.eq_of_toNat_eq hb
  simp only [State.readByte, State.setMem_mem, Memory.get_set_ne _ _ hne]
  rfl

/-- Settles O8: a write replaces the memory array alone, and in it only the bytes it names. -/
theorem writesChangeOnlyTheirBytes : Obligations.WritesChangeOnlyTheirBytes := by
  refine ⟨fun s t a v h => ?_, fun s t a v h => ?_⟩
  · have hbytes (b : Word) := State.readByte_of_writeWord_outside (b := b) h
    obtain ⟨-, rfl⟩ := State.writeWord_eq_ok.1 h
    exact ⟨fun _ => rfl, rfl, rfl, rfl, hbytes⟩
  · have hself := State.readByte_of_writeByte h
    have hbytes (b : Word) := State.readByte_of_writeByte_ne (b := b) h
    obtain ⟨-, rfl⟩ := State.writeByte_eq_ok.1 h
    exact ⟨fun _ => rfl, rfl, rfl, rfl, hself, hbytes⟩

/-! ### Four byte writes are a word write (R34) -/

/-- The loader goes on with the rest of the image after a byte inside the memory. -/
theorem loadImage_cons_of_lt {s : State} {a : Word} (b : Byte) (image : List (Word × Byte))
    (h : a.toNat < s.cfg.memCapacity) :
    loadImage s ((a, b) :: image) = loadImage (s.setMem (s.mem.set a.toNat b)) image := by
  rw [loadImage, State.writeByte_eq_ok.2 ⟨h, rfl⟩]

theorem toNat_byteOfWord (w : Word) (k : Nat) :
    (byteOfWord w k).toNat = w.toNat / 2 ^ (24 - 8 * k) % 2 ^ 8 := by
  rw [byteOfWord, BitVec.extractLsb'_toNat, Nat.shiftRight_eq_div_pow]

/-- The word made of four bytes has these bytes. -/
theorem byteOfWord_wordOfBytes (b0 b1 b2 b3 : Byte) :
    byteOfWord (wordOfBytes b0 b1 b2 b3) 0 = b0 ∧ byteOfWord (wordOfBytes b0 b1 b2 b3) 1 = b1 ∧
    byteOfWord (wordOfBytes b0 b1 b2 b3) 2 = b2 ∧ byteOfWord (wordOfBytes b0 b1 b2 b3) 3 = b3 := by
  have hlt1 := b1.isLt
  have hlt2 := b2.isLt
  have hlt3 := b3.isLt
  refine ⟨?_, ?_, ?_, ?_⟩
  all_goals
    apply BitVec.eq_of_toNat_eq
    rw [toNat_byteOfWord, toNat_wordOfBytes]
    omega

/-- Storing four bytes one by one is storing the word they make. -/
theorem Memory.setWord_wordOfBytes (m : Memory) (a : Nat) (b0 b1 b2 b3 : Byte) :
    m.setWord a (wordOfBytes b0 b1 b2 b3) =
      (((m.set a b0).set (a + 1) b1).set (a + 2) b2).set (a + 3) b3 := by
  obtain ⟨h0, h1, h2, h3⟩ := byteOfWord_wordOfBytes b0 b1 b2 b3
  rw [Memory.setWord, h0, h1, h2, h3]

/-- Loading four bytes at an aligned address leaves the state of one word write. -/
theorem loadImage_word {s : State} {a : Word} (b0 b1 b2 b3 : Byte) (haligned : a.toNat % 4 = 0)
    (hbound : a.toNat + 4 ≤ s.cfg.memCapacity) :
    loadImage s [(a, b0), (a + 1, b1), (a + 2, b2), (a + 3, b3)] =
      s.writeWord a (wordOfBytes b0 b1 b2 b3) := by
  have h1 := toNat_add_one_of_aligned haligned
  have h2 := toNat_add_two_of_aligned haligned
  have h3 := toNat_add_three_of_aligned haligned
  rw [loadImage_cons_of_lt, loadImage_cons_of_lt, loadImage_cons_of_lt, loadImage_cons_of_lt,
    State.writeWord_ok _ hbound haligned, Memory.setWord_wordOfBytes, h1, h2, h3]
  · rfl
  all_goals show _ < s.cfg.memCapacity; omega

/-- Settles O9: the four byte writes are one word write, which is read back. -/
theorem fourBytesMakeTheWord : Obligations.FourBytesMakeTheWord := by
  intro s a b0 b1 b2 b3 haligned hbound
  have hwrite := State.writeWord_ok (wordOfBytes b0 b1 b2 b3) hbound haligned
  exact ⟨_, _, (loadImage_word b0 b1 b2 b3 haligned hbound).trans hwrite,
    State.readWord_of_writeWord hwrite, toNat_wordOfBytes b0 b1 b2 b3⟩

/-! ### The word a store leaves (R46, R48) -/

/-- A `sw` completes exactly when its word write succeeds, and goes on at `npc` (R161). -/
theorem exec_sw_eq_next {rt rs : RegIdx} {imm : Word} {s t : State} :
    exec (.sw rt rs imm) s = .next t ↔
      ∃ u, s.writeWord (effectiveAddress s rs imm) (s.getReg rt) = .ok u ∧ t = u.setPc s.npc := by
  refine orRaise_eq_next.trans ?_
  simp only [transfer_eq_next]

/-- Settles O31: the word is read back after the write, and neither load nor fetch reads anything
but the memory array. -/
theorem storedWordIsLoadedAndFetched : Obligations.StoredWordIsLoadedAndFetched := by
  intro s t rt rs imm h
  obtain ⟨u, hwrite, rfl⟩ := exec_sw_eq_next.1 h
  have hread := State.readWord_of_writeWord hwrite
  exact ⟨hread, hread⟩

end Sys2Proof.Machine

/-! PROOFS of the statements of 30_encoding.md: the encoder and the decoder, the opcode table, the
ignored bits, and the words that are no instruction. -/

namespace Sys2Proof.Machine

/-! ### Decoding an encoded instruction (R62 to R66, R82) -/

/-- The fields of an R-type word that its instruction uses (R63). -/
theorem splitFields_encodeR (funct : BitVec 6) (rd rs rt : RegIdx) :
    splitFields (encodeR funct rd rs rt) =
      { op := 0, funct := funct, rs := rs, rt := rt, rd := rd,
        imm16 := imm16Field (encodeR funct rd rs rt),
        imm := sext16 (imm16Field (encodeR funct rd rs rt)),
        target := targetField (encodeR funct rd rs rt) } := by
  simp only [splitFields, opField_encodeR, functField_encodeR, regField_encodeR_rs,
    regField_encodeR_rt, regField_encodeR_rd]

/-- The decoder inverts the encoder: each format is split into the fields it was made of, and a
well-formed immediate is the sign extension of its field. -/
theorem decodeWord_encode {i : Instr} (h : i.wellFormed = true) :
    decodeWord (encode i) = some i := by
  cases i
  case add | addu | sub | subu => rw [encode, decodeWord, splitFields_encodeR]; rfl
  case j | jal => rw [encode, decodeWord, splitFields_encodeJ]; rfl
  all_goals rw [encode, decodeWord, splitFields_encodeI, sext16_immBits h]; rfl

/-- The bytes of a word decode as the word does, and the rest of the list is handed back. -/
theorem decodeBytes_bytesOfWord {w : Word} {i : Instr} (h : decodeWord w = some i)
    (rest : List Byte) : decodeBytes (bytesOfWord w ++ rest) = .ok (i, rest) := by
  simp only [bytesOfWord, List.cons_append, List.nil_append, decodeBytes,
    wordOfBytes_byteOfWord, h]

/-- Settles O13: the decoder inverts the encoder on words, and the bytes of a word make the word. -/
theorem encodedInstructionDecodesToItself : Obligations.EncodedInstructionDecodesToItself :=
  fun _ h => ⟨decodeWord_encode h, decodeBytes_bytesOfWord (decodeWord_encode h)⟩

/-! ### A word is made of its fields, format by format (R62 to R65) -/

/-- A word in the I-type layout. -/
theorem encodeI_fields (w : Word) :
    encodeI (opField w) (regField w 21) (regField w 16) (imm16Field w) = w := by
  show w.extractLsb' 26 6 ++ w.extractLsb' 21 5 ++ w.extractLsb' 16 5 ++ w.extractLsb' 0 16 = w
  iterate 3 rw [BitVec.extractLsb'_append_extractLsb'_eq_extractLsb' (by rfl)]
  exact BitVec.extractLsb'_eq_self

/-- A word in the J-type layout. -/
theorem encodeJ_fields (w : Word) : encodeJ (opField w) (targetField w) = w :=
  (BitVec.extractLsb'_append_extractLsb'_eq_extractLsb' rfl).trans BitVec.extractLsb'_eq_self

/-- A word in the R-type layout, bits 10:6 beside the fields. -/
theorem append_fieldsR (w : Word) :
    opField w ++ regBits (regField w 21) ++ regBits (regField w 16) ++ regBits (regField w 11) ++
      w.extractLsb' 6 5 ++ functField w = w := by
  show w.extractLsb' 26 6 ++ w.extractLsb' 21 5 ++ w.extractLsb' 16 5 ++ w.extractLsb' 11 5 ++
    w.extractLsb' 6 5 ++ w.extractLsb' 0 6 = w
  iterate 5 rw [BitVec.extractLsb'_append_extractLsb'_eq_extractLsb' (by rfl)]
  exact BitVec.extractLsb'_eq_self

/-! ### Clearing the ignored bits (R72) -/

theorem appendR_and_not_shamt (funct : BitVec 6) (rd rs rt : RegIdx) (shamt : BitVec 5) :
    (0#6 ++ regBits rs ++ regBits rt ++ regBits rd ++ shamt ++ funct : Word) &&& ~~~0x000007C0#32 =
      encodeR funct rd rs rt := by
  show (0#6 ++ regBits rs ++ regBits rt ++ regBits rd ++ shamt ++ funct) &&&
    (BitVec.allOnes 6 ++ BitVec.allOnes 5 ++ BitVec.allOnes 5 ++ BitVec.allOnes 5 ++ 0#5 ++
      BitVec.allOnes 6) = _
  simp only [BitVec.and_append, BitVec.and_allOnes, BitVec.and_zero]
  rfl

theorem encodeI_and_not_rt (op : BitVec 6) (rs rt : RegIdx) (imm16 : BitVec 16) :
    encodeI op rs rt imm16 &&& ~~~0x001F0000#32 = encodeI op rs 0 imm16 := by
  show (op ++ regBits rs ++ regBits rt ++ imm16) &&&
    (BitVec.allOnes 6 ++ BitVec.allOnes 5 ++ 0#5 ++ BitVec.allOnes 16) = _
  simp only [BitVec.and_append, BitVec.and_allOnes, BitVec.and_zero]
  rfl

theorem encodeI_and_not_rs (op : BitVec 6) (rs rt : RegIdx) (imm16 : BitVec 16) :
    encodeI op rs rt imm16 &&& ~~~0x03E00000#32 = encodeI op 0 rt imm16 := by
  show (op ++ regBits rs ++ regBits rt ++ imm16) &&&
    (BitVec.allOnes 6 ++ 0#5 ++ BitVec.allOnes 5 ++ BitVec.allOnes 16) = _
  simp only [BitVec.and_append, BitVec.and_allOnes, BitVec.and_zero]
  rfl

section FieldsOfAWord

variable {w : Word} {op funct : BitVec 6}

/-- A word of opcode 0 is the R-type encoding of its fields, but for bits 10:6. -/
theorem and_not_shamt_eq_encodeR (hop : (opField w).toNat = 0)
    (hfunct : (functField w).toNat = funct.toNat) :
    w &&& ~~~0x000007C0#32 = encodeR funct (regField w 11) (regField w 21) (regField w 16) := by
  have hw := append_fieldsR w
  rw [BitVec.eq_of_toNat_eq (y := 0#6) hop, BitVec.eq_of_toNat_eq hfunct] at hw
  rw [← appendR_and_not_shamt _ _ _ _ (w.extractLsb' 6 5), hw]

/-- A word is the J-type encoding of its target. -/
theorem and_not_zero_eq_encodeJ (hop : (opField w).toNat = op.toNat) :
    w &&& ~~~0 = encodeJ op (targetField w) := by
  rw [← BitVec.eq_of_toNat_eq hop, encodeJ_fields]
  exact BitVec.and_allOnes

/-- A word is the I-type encoding of its fields, the immediate sign-extended on the way. -/
theorem and_not_zero_eq_encodeI (hop : (opField w).toNat = op.toNat) :
    w &&& ~~~0 = encodeI op (regField w 21) (regField w 16) (immBits (sext16 (imm16Field w))) := by
  rw [← BitVec.eq_of_toNat_eq hop, immBits_sext16, encodeI_fields]
  exact BitVec.and_allOnes

/-- As `and_not_zero_eq_encodeI`, for an instruction that ignores `rt`. -/
theorem and_not_rt_eq_encodeI (hop : (opField w).toNat = op.toNat) :
    w &&& ~~~0x001F0000#32 = encodeI op (regField w 21) 0 (immBits (sext16 (imm16Field w))) := by
  rw [← BitVec.eq_of_toNat_eq hop, immBits_sext16, ← encodeI_and_not_rt _ _ (regField w 16),
    encodeI_fields]

/-- As `and_not_zero_eq_encodeI`, for an instruction that ignores `rs`. -/
theorem and_not_rs_eq_encodeI (hop : (opField w).toNat = op.toNat) :
    w &&& ~~~0x03E00000#32 = encodeI op 0 (regField w 16) (immBits (sext16 (imm16Field w))) := by
  rw [← BitVec.eq_of_toNat_eq hop, immBits_sext16, ← encodeI_and_not_rs _ (regField w 21),
    encodeI_fields]

end FieldsOfAWord

/-! ### What the decoder answers is an encoding (R72, D7) -/

/-- `w` is an encoding of the well-formed instruction `i` but for the bits that `i` ignores. -/
def IsEncodingOf (w : Word) (i : Instr) : Prop :=
  i.wellFormed = true ∧ w &&& ~~~ignoredBits i.mnemonic = encode i

/-- The function map of opcode 0 answers encodings only. -/
theorem isEncodingOf_of_selectRType {w : Word} {i : Instr} (hop : (opField w).toNat = 0)
    (h : selectRType (splitFields w) = some i) : IsEncodingOf w i := by
  unfold selectRType at h
  split at h
  case h_5 => cases h
  all_goals
    rename_i hfunct
    cases h
    exact ⟨rfl, and_not_shamt_eq_encodeR hop hfunct⟩

/-- The decoder answers encodings only. -/
theorem isEncodingOf_of_decodeWord {w : Word} {i : Instr} (h : decodeWord w = some i) :
    IsEncodingOf w i := by
  unfold decodeWord selectInstr at h
  split at h
  case h_1 hop => exact isEncodingOf_of_selectRType hop h
  case h_18 => cases h
  all_goals
    rename_i hop
    cases h
  case h_2 | h_3 => exact ⟨rfl, and_not_zero_eq_encodeJ hop⟩
  case h_6 | h_7 => exact ⟨isSignExtended_sext16 _, and_not_rt_eq_encodeI hop⟩
  case h_15 => exact ⟨isSignExtended_sext16 _, and_not_rs_eq_encodeI hop⟩
  all_goals exact ⟨isSignExtended_sext16 _, and_not_zero_eq_encodeI hop⟩

/-! ### The opcode table (R70) -/

/-- The law of the fixed bits, for the instructions together. -/
theorem fixedBits : ∀ i : Instr, Laws.FixedBits.Statement i
  | .add .. => Laws.FixedBits.add ..
  | .addu .. => Laws.FixedBits.addu ..
  | .sub .. => Laws.FixedBits.sub ..
  | .subu .. => Laws.FixedBits.subu ..
  | .j .. => Laws.FixedBits.j ..
  | .jal .. => Laws.FixedBits.jal ..
  | .beq .. => Laws.FixedBits.beq ..
  | .bne .. => Laws.FixedBits.bne ..
  | .blez .. => Laws.FixedBits.blez ..
  | .bgtz .. => Laws.FixedBits.bgtz ..
  | .addi .. => Laws.FixedBits.addi ..
  | .addiu .. => Laws.FixedBits.addiu ..
  | .slti .. => Laws.FixedBits.slti ..
  | .sltiu .. => Laws.FixedBits.sltiu ..
  | .andi .. => Laws.FixedBits.andi ..
  | .ori .. => Laws.FixedBits.ori ..
  | .xori .. => Laws.FixedBits.xori ..
  | .lui .. => Laws.FixedBits.lui ..
  | .lw .. => Laws.FixedBits.lw ..
  | .sw .. => Laws.FixedBits.sw ..

/-- Every mnemonic has a row. -/
theorem exists_row (m : Mnemonic) : ∃ row ∈ opcodeTable, row.mnemonic = m := by
  cases m <;> decide

/-- A row looks at no bit that its instruction ignores. -/
theorem and_mask_eq_of_mem {row : OpcodeRow} (hrow : row ∈ opcodeTable) (w : Word) :
    w &&& row.mask = (w &&& ~~~ignoredBits row.mnemonic) &&& row.mask := by
  have hmask : ∀ r ∈ opcodeTable, ~~~ignoredBits r.mnemonic &&& r.mask = r.mask := by decide
  rw [BitVec.and_assoc, hmask row hrow]

/-- An encoding of an instruction matches the rows of its mnemonic. -/
theorem IsEncodingOf.and_mask {w : Word} {i : Instr} (h : IsEncodingOf w i) {row : OpcodeRow}
    (hrow : row ∈ opcodeTable) (hi : row.mnemonic = i.mnemonic) :
    w &&& row.mask = row.pattern := by
  obtain ⟨-, hw⟩ := h
  obtain ⟨hfixed, -⟩ := fixedBits i
  rw [and_mask_eq_of_mem hrow, hi, hw, hfixed row hrow hi]

/-- Which instruction is selected depends on the opcode, and for opcode 0 on the function code,
alone (R71, R73). -/
theorem selectInstr_mnemonic_congr {d d' : DecodedInstruction} (hop : d.op = d'.op)
    (hfunct : d.funct = d'.funct ∨ d'.op ≠ 0) :
    (selectInstr d).map Instr.mnemonic = (selectInstr d').map Instr.mnemonic := by
  unfold selectInstr
  rw [hop]
  split
  case h_1 hzero =>
    have hzero' : d'.op = 0 := BitVec.eq_of_toNat_eq hzero
    rw [selectRType, selectRType, hfunct.resolve_right (not_not_intro hzero')]
    split <;> rfl
  all_goals rfl

/-- A word that matches a row is decoded as the instruction of that row: it has the opcode of the
row's pattern, and its function code too where the opcode is 0. -/
theorem decodeWord_mnemonic_of_and_mask {w : Word} {row : OpcodeRow} (hrow : row ∈ opcodeTable)
    (h : w &&& row.mask = row.pattern) :
    (decodeWord w).map Instr.mnemonic = some row.mnemonic := by
  have hpattern : ∀ r ∈ opcodeTable, (decodeWord r.pattern).map Instr.mnemonic = some r.mnemonic ∧
      opField r.mask = BitVec.allOnes 6 ∧
      (functField r.mask = BitVec.allOnes 6 ∨ opField r.pattern ≠ 0) := by decide
  obtain ⟨hdecode, hopMask, hfunctMask⟩ := hpattern row hrow
  have hop : opField w = opField row.pattern := by
    rw [← h, opField, opField, BitVec.extractLsb'_and, ← opField, ← opField, hopMask,
      BitVec.and_allOnes]
  have hfunct (hm : functField row.mask = BitVec.allOnes 6) :
      functField w = functField row.pattern := by
    rw [← h, functField, functField, BitVec.extractLsb'_and, ← functField, ← functField, hm,
      BitVec.and_allOnes]
  rw [← hdecode]
  exact selectInstr_mnemonic_congr hop (hfunctMask.imp_left hfunct)

theorem decodeWord_mnemonic_iff_and_mask {w : Word} {row : OpcodeRow} (hrow : row ∈ opcodeTable) :
    (decodeWord w).map Instr.mnemonic = some row.mnemonic ↔ w &&& row.mask = row.pattern := by
  refine ⟨fun h => ?_, decodeWord_mnemonic_of_and_mask hrow⟩
  obtain ⟨i, hi, hmnemonic⟩ := Option.map_eq_some_iff.1 h
  exact (isEncodingOf_of_decodeWord hi).and_mask hrow hmnemonic.symm

theorem decodeWord_eq_none_iff {w : Word} :
    decodeWord w = none ↔ ∀ row ∈ opcodeTable, w &&& row.mask ≠ row.pattern := by
  refine ⟨fun h row hrow hw => ?_, fun h => ?_⟩
  · have hsome := decodeWord_mnemonic_of_and_mask hrow hw
    rw [h] at hsome
    cases hsome
  · by_contra hne
    obtain ⟨i, hi⟩ := Option.ne_none_iff_exists'.1 hne
    obtain ⟨row, hrow, hmnemonic⟩ := exists_row i.mnemonic
    exact h row hrow ((isEncodingOf_of_decodeWord hi).and_mask hrow hmnemonic)

/-- Settles O14: a decoded word is an encoding, so it carries the fixed bits of its row; a word that
carries them has the opcode and function code that select the row's instruction. -/
theorem decoderFollowsTheOpcodeTable : Obligations.DecoderFollowsTheOpcodeTable :=
  ⟨rfl, fun _ => ⟨fun _ hrow => decodeWord_mnemonic_iff_and_mask hrow, decodeWord_eq_none_iff⟩⟩

/-! ### The decoder's answer is exactly the encoded instruction (R72, D7) -/

/-- Every encoding of an instruction decodes to it: the table gives an instruction of the same
mnemonic, whose ignored bits are the same, so that both have one encoder's word. -/
theorem IsEncodingOf.decodeWord_eq {w : Word} {i : Instr} (h : IsEncodingOf w i) :
    decodeWord w = some i := by
  obtain ⟨row, hrow, hmnemonic⟩ := exists_row i.mnemonic
  have hmap := decodeWord_mnemonic_of_and_mask hrow (h.and_mask hrow hmnemonic)
  obtain ⟨i', hi', hmnemonic'⟩ := Option.map_eq_some_iff.1 hmap
  obtain ⟨hwf, hw⟩ := h
  obtain ⟨hwf', hw'⟩ := isEncodingOf_of_decodeWord hi'
  have hencode : encode i' = encode i := by rw [← hw', ← hw, hmnemonic', hmnemonic]
  rw [hi', ← decodeWord_encode hwf', hencode, decodeWord_encode hwf]

/-- Settles O15: the decoder answers encodings only, and every encoding of an instruction. -/
theorem decodedExactlyByItsEncodings : Obligations.DecodedExactlyByItsEncodings :=
  fun _ _ => ⟨isEncodingOf_of_decodeWord, IsEncodingOf.decodeWord_eq⟩

/-! ### Words that are no instruction (R76, R77) -/

theorem functField_toNat (w : Word) : (functField w).toNat = w.toNat % 2 ^ 6 := by
  rw [functField, BitVec.extractLsb'_toNat, Nat.shiftRight_zero]

/-- A fetched word that is no instruction raises the error with its fields (R173). -/
theorem step_eq_fault_of_decodeWord_eq_none {s : State} {w : Word} (hfetch : s.fetchWord = .ok w)
    (hnone : decodeWord w = none) :
    step s = .fault (.unimplementedInstruction (opField w) (functField w)) :=
  step_eq_fault.2 (.inr (.inl ⟨w, hfetch, hnone, rfl⟩))

/-- Settles O19: a word outside the table, the zero word among them, decodes to no instruction. -/
theorem unlistedWordRaisesUnimplemented : Obligations.UnlistedWordRaisesUnimplemented := by
  refine ⟨fun s w hfetch hrows => ?_, fun s hfetch => ?_⟩
  · exact ⟨_, _, step_eq_fault_of_decodeWord_eq_none hfetch (decodeWord_eq_none_iff.2 hrows),
      opField_toNat w, functField_toNat w⟩
  · exact step_eq_fault_of_decodeWord_eq_none hfetch rfl

/-- Settles O16, by running the decoder on each of the words. -/
theorem specWordsDecodeAsListed : Obligations.SpecWordsDecodeAsListed := by
  unfold Obligations.SpecWordsDecodeAsListed
  decide

end Sys2Proof.Machine

/-! PROOFS of the statements of 40_cycle.md: the answer of every step, the error that leaves the
state, what one step can change, and the execution of the decoded instruction. -/

namespace Sys2Proof.Machine

/-! ### Every step answers (R97) -/

/-- Settles O21: a step ends in one of three outcomes, and never in the refusal. -/
theorem stepAlwaysAnswers : Obligations.StepAlwaysAnswers := by
  intro s
  cases h : step s with
  | next t => exact .inl ⟨t, rfl⟩
  | fault e => exact .inr ⟨e, rfl⟩
  | refused r => exact absurd h (step_ne_refused s r)

/-! ### A call that returns an error (R96, R176, R178) -/

/-- A call whose step fails returns the error and the state before it. -/
theorem callStep_of_fault {s : State} {e : Fault} (h : step s = .fault e) :
    callStep s = (s, .error e) := by
  simp [callStep, h]

/-- A call returns an error only when its step raises it. -/
theorem step_eq_fault_of_callStep {s : State} {e : Fault} (h : (callStep s).2 = .error e) :
    step s = .fault e := by
  unfold callStep at h
  split at h
  · cases h
  · next hstep => cases h; exact hstep
  · cases h

/-- Settles O22: the failing call leaves the state, in which the next call fails the same way; a run
from it ends at its first call. -/
theorem errorLeavesStateAndRepeats : Obligations.ErrorLeavesStateAndRepeats := by
  intro s e h
  have hstep := step_eq_fault_of_callStep h
  have hcall := callStep_of_fault hstep
  refine ⟨congrArg Prod.fst hcall, fun n => ?_⟩
  have hrun := runSteps_succ_of_fault hstep n
  exact ⟨hrun, by rw [hrun]; exact hcall⟩

/-! ### What one step changes (R102) -/

/-- No instruction changes the build parameters (R5, R6). -/
theorem NextForm.cfg_eq {s t : State} {i : Instr} (h : NextForm s i t) : t.cfg = s.cfg := by
  cases h with
  | wrote v hd => exact State.setReg_cfg s _ v
  | jumped | linked | branched | stored => rfl

/-- Every general register but the one in the instruction's row keeps its value; an instruction with
none in its row changes none (R20). -/
theorem NextForm.getReg_eq_of_ne {s t : State} {i : Instr} (h : NextForm s i t) {r : RegIdx}
    (hr : r ≠ (writtenReg i).getD 0) : t.getReg r = s.getReg r :=
  h.getReg_eq fun hd => hr (by rw [hd]; rfl)

/-- Only a store changes memory: it changes the aligned word at its effective address, and no
general register (R161). -/
theorem NextForm.sameMemory_or_stored {s t : State} {i : Instr} (h : NextForm s i t) :
    SameMemory s t ∨ SameRegs s t ∧ ∃ rt rs imm, i = .sw rt rs imm ∧
      (effectiveAddress s rs imm).toNat % 4 = 0 ∧
      ∀ b : Word, b.toNat < (effectiveAddress s rs imm).toNat ∨
        (effectiveAddress s rs imm).toNat + 4 ≤ b.toNat → t.readByte b = s.readByte b := by
  cases h with
  | wrote v hd => exact .inl (State.readByte_congr (by simp) (by simp))
  | jumped | linked | branched => exact .inl fun _ => rfl
  | stored rt rs imm hbound haligned =>
    have hwrite := State.writeWord_ok (s.getReg rt) hbound haligned
    exact .inr ⟨fun _ => rfl, rt, rs, imm, rfl, haligned,
      fun b => State.readByte_of_writeWord_outside (b := b) (t := s.setMem _) hwrite⟩

/-- Settles O27: each clause holds of every form of a next state. -/
theorem oneStepChangesAtMostThis : Obligations.OneStepChangesAtMostThis := by
  intro s t h
  obtain ⟨w, i, hfetch, hdecode, hexec⟩ := step_eq_next.1 h
  have hform := exec_nextForm hexec
  exact ⟨hform.cfg_eq, w, i, hfetch, hdecode, ⟨_, fun _ hr => hform.getReg_eq_of_ne hr⟩,
    not_imp_comm.1 hform.lr_eq, hform.sameMemory_or_stored⟩

/-! ### The instruction a step executes (R91 to R94) -/

/-- A step whose fetched word is an instruction is the execution of it, whatever its outcome. -/
theorem step_eq_exec {s : State} {w : Word} {i : Instr} (hfetch : s.fetchWord = .ok w)
    (hdecode : decodeWord w = some i) : step s = exec i s := by
  simp [step, hfetch, orRaise, hdecode]

/-- Four bytes decode as the word they make. -/
theorem decodeWord_of_decodeBytes {b0 b1 b2 b3 : Byte} {i : Instr} {rest rest' : List Byte}
    (h : decodeBytes (b0 :: b1 :: b2 :: b3 :: rest) = .ok (i, rest')) :
    decodeWord (wordOfBytes b0 b1 b2 b3) = some i := by
  rw [decodeBytes] at h
  split at h
  · next hdecode => cases h; exact hdecode
  · cases h

/-- Four readable bytes from an aligned address on are read as the word they make (R33, R34). -/
theorem State.readWord_of_readByte {s : State} {a : Word} {b0 b1 b2 b3 : Byte}
    (haligned : a.toNat % 4 = 0) (h0 : s.readByte a = .ok b0) (h1 : s.readByte (a + 1) = .ok b1)
    (h2 : s.readByte (a + 2) = .ok b2) (h3 : s.readByte (a + 3) = .ok b3) :
    s.readWord a = .ok (wordOfBytes b0 b1 b2 b3) := by
  obtain ⟨-, rfl⟩ := State.readByte_eq_ok.1 h0
  obtain ⟨-, rfl⟩ := State.readByte_eq_ok.1 h1
  obtain ⟨-, rfl⟩ := State.readByte_eq_ok.1 h2
  obtain ⟨hbound, rfl⟩ := State.readByte_eq_ok.1 h3
  rw [toNat_add_three_of_aligned haligned] at hbound
  rw [toNat_add_one_of_aligned haligned, toNat_add_two_of_aligned haligned,
    toNat_add_three_of_aligned haligned]
  exact State.readWord_eq_ok.2 ⟨⟨hbound, haligned⟩, rfl⟩

/-- Settles O17: the fetch reads the word of the four bytes, and they decode as that word does. -/
theorem stepExecutesTheDecodedInstruction : Obligations.StepExecutesTheDecodedInstruction :=
  fun _ _ _ _ _ _ haligned h0 h1 h2 h3 hdecode =>
    step_eq_exec (State.readWord_of_readByte haligned h0 h1 h2 h3)
      (decodeWord_of_decodeBytes hdecode)

end Sys2Proof.Machine

/-! PROOFS of the statements of 41_rtype_arith.md: the encodings, results, completion and frames of
the four register-register instructions. -/

namespace Sys2Proof.Machine

/-! ### Any bits 10:6 (R72, D7) -/

/-- A word in the R-type layout decodes to the instruction that the encoder writes with the same
fields and zero in bits 10:6, if those are the bits it ignores. -/
theorem decodeWord_appendR {i : Instr} {funct : BitVec 6} {rd rs rt : RegIdx}
    (hwf : i.wellFormed = true) (hencode : encode i = encodeR funct rd rs rt)
    (hignored : ignoredBits i.mnemonic = 0x000007C0#32) (p : BitVec 5) :
    decodeWord (0#6 ++ regBits rs ++ regBits rt ++ regBits rd ++ p ++ funct) = some i := by
  have hencoding : IsEncodingOf (0#6 ++ regBits rs ++ regBits rt ++ regBits rd ++ p ++ funct) i :=
    ⟨hwf, by rw [hignored, appendR_and_not_shamt, hencode]⟩
  exact hencoding.decodeWord_eq

/-! ### The results modulo `2^32` (R110 to R114) -/

/-- A difference of words is that of their values, modulo `2^32`. -/
theorem toNat_sub_eq_emod (a b : Word) :
    ((a - b).toNat : Int) = (a.toNat - b.toNat : Int) % 2 ^ 32 := by
  have hb := b.isLt
  rw [BitVec.toNat_sub]
  omega

/-- Writing back a sum completes in every state and changes nothing but the destination and `pc`. -/
theorem writeBack_add (s : State) (rd rs rt : RegIdx) :
    ∃ t v, writeBack rd (s.getReg rs + s.getReg rt) s = .next t ∧
      v.toNat = ((s.getReg rs).toNat + (s.getReg rt).toNat) % 2 ^ 32 ∧ WroteReg s t rd v :=
  ⟨_, s.getReg rs + s.getReg rt, rfl, BitVec.toNat_add .., wroteReg_writeBack ..⟩

/-- Writing back a difference completes in every state, as `writeBack_add`. -/
theorem writeBack_sub (s : State) (rd rs rt : RegIdx) :
    ∃ t v, writeBack rd (s.getReg rs - s.getReg rt) s = .next t ∧
      (v.toNat : Int) = ((s.getReg rs).toNat - (s.getReg rt).toNat : Int) % 2 ^ 32 ∧
      WroteReg s t rd v :=
  ⟨_, s.getReg rs - s.getReg rt, rfl, toNat_sub_eq_emod .., wroteReg_writeBack ..⟩

/-! ### The four instructions -/

/-- Settles O33: `add` ignores bits 10:6 and writes back the sum. -/
theorem addWritesTheWrappedSum : Obligations.AddWritesTheWrappedSum :=
  fun s rd rs rt => ⟨decodeWord_appendR rfl rfl rfl, writeBack_add s rd rs rt⟩

/-- Settles O34: `addu` ignores bits 10:6 and writes back the sum. -/
theorem adduWritesTheWrappedSum : Obligations.AdduWritesTheWrappedSum :=
  fun s rd rs rt => ⟨decodeWord_appendR rfl rfl rfl, writeBack_add s rd rs rt⟩

/-- Settles O35: `sub` ignores bits 10:6 and writes back the difference. -/
theorem subWritesTheWrappedDifference : Obligations.SubWritesTheWrappedDifference :=
  fun s rd rs rt => ⟨decodeWord_appendR rfl rfl rfl, writeBack_sub s rd rs rt⟩

/-- Settles O36: `subu` ignores bits 10:6 and writes back the difference. -/
theorem subuWritesTheWrappedDifference : Obligations.SubuWritesTheWrappedDifference :=
  fun s rd rs rt => ⟨decodeWord_appendR rfl rfl rfl, writeBack_sub s rd rs rt⟩

end Sys2Proof.Machine

/-! PROOFS of the statements of 42_jumps.md: the encodings, destination, completion and frames of
`j` and `jal`. -/

namespace Sys2Proof.Machine

/-! ### The destination of a jump as a number (R120) -/

/-- Words put side by side have the value of the left one, shifted, plus that of the right one. -/
theorem toNat_append_eq_add {m n : Nat} (a : BitVec m) (b : BitVec n) :
    (a ++ b).toNat = a.toNat * 2 ^ n + b.toNat := by
  rw [BitVec.toNat_append, ← Nat.shiftLeft_add_eq_or_of_lt b.isLt, Nat.shiftLeft_eq]

/-- The region of an address is its value without the lower 28 bits (R68, D6). -/
theorem toNat_region (w : Word) : (w.extractLsb' 28 4).toNat = w.toNat / 2 ^ 28 := by
  have hlt := w.isLt
  rw [BitVec.extractLsb'_toNat, Nat.shiftRight_eq_div_pow, Nat.mod_eq_of_lt (by omega)]

theorem jumpDest_toNat (s : State) (target : BitVec 26) :
    (jumpDest s target).toNat = jumpAddress s target := by
  have hregion : (s.npc.extractLsb' 28 4).toNat = nextAddress s / 2 ^ 28 := by
    rw [toNat_region, State.npc_toNat, nextAddress]
  rw [jumpDest, toNat_append_eq_add, toNat_append_eq_add, hregion, jumpAddress, BitVec.toNat_ofNat]
  omega

/-- Moving `pc` to the destination of a jump changes nothing else. -/
theorem wentTo_jumpDest (s : State) (target : BitVec 26) :
    WentTo s (s.setPc (jumpDest s target)) (jumpAddress s target) :=
  jumpDest_toNat s target ▸ wentTo_setPc s (jumpDest s target)

/-! ### The two instructions -/

/-- Settles O37: the word is the encoding of `j`, which moves `pc` and ends. -/
theorem jumpGoesToItsTarget : Obligations.JumpGoesToItsTarget :=
  fun s target => ⟨decodeWord_encode (i := .j target) rfl, _, rfl, wentTo_jumpDest s target⟩

/-- Settles O38: the word is the encoding of `jal`, which jumps from the linked state; linking
moves neither `npc` nor anything that `j` leaves alone. -/
theorem jalLinksAndJumps : Obligations.JalLinksAndJumps := by
  intro s target
  obtain ⟨hpc, hregs, -, hmem, hcfg⟩ := wentTo_jumpDest (s.setLr s.npc) target
  exact ⟨decodeWord_encode (i := .jal target) rfl, _, rfl, State.npc_toNat s, hpc, hregs, hmem,
    hcfg⟩

end Sys2Proof.Machine

/-! PROOFS of the statements of 43_branches.md: the encodings, conditions, destinations, completion
and frames of the four branches. -/

namespace Sys2Proof.Machine

/-! ### Words in the I-type layout (R64) -/

/-- A word in the I-type layout decodes to the instruction that its opcode, register and immediate
fields select, if the bits that only the other formats read do not matter. -/
theorem decodeWord_encodeI {i : Instr} {op : BitVec 6} {rs rt : RegIdx} {imm16 : BitVec 16}
    (hselect : ∀ funct rd target,
      selectInstr ⟨op, funct, rs, rt, rd, imm16, sext16 imm16, target⟩ = some i) :
    decodeWord (encodeI op rs rt imm16) = some i := by
  rw [decodeWord, splitFields_encodeI]
  exact hselect _ _ _

/-! ### The conditions (R131 to R134) -/

theorem sameBits_iff {a b : Word} : sameBits a b = true ↔ a = b := beq_iff_eq

theorem not_sameBits_iff {a b : Word} : (!sameBits a b) = true ↔ a ≠ b := bne_iff_ne

/-- The sign bit and the test for zero decide the comparison of the signed value with zero. -/
theorem atMostZero_iff {a : Word} : atMostZero a = true ↔ signed a ≤ 0 := by
  have hzero : a = 0 ↔ a.toNat = 0 := BitVec.toNat_inj.symm
  have hsign : a.msb = true ↔ 2 ^ 31 ≤ a.toNat := by simp [BitVec.msb_eq_decide]
  have hlt := a.isLt
  rw [atMostZero, Bool.or_eq_true, beq_iff_eq, hzero, hsign, signed]
  split <;> omega

theorem aboveZero_eq_not_atMostZero (a : Word) : aboveZero a = !atMostZero a :=
  (Bool.not_or ..).symm

theorem aboveZero_iff {a : Word} : aboveZero a = true ↔ signed a > 0 := by
  rw [aboveZero_eq_not_atMostZero, Bool.not_eq_true', ← Bool.not_eq_true, atMostZero_iff, not_le]

/-! ### The destination of a branch as a number (R130) -/

/-- Shifting the sign-extended displacement quadruples its signed value, modulo `2^32` (R67, D5). -/
theorem branchOffset_sext16_toNat (imm16 : BitVec 16) :
    ((branchOffset (sext16 imm16)).toNat : Int) = 4 * signed16 imm16 % 2 ^ 32 := by
  have hsext := toNat_sext16 imm16
  rw [branchOffset, BitVec.toNat_shiftLeft, Nat.shiftLeft_eq]
  omega

theorem branchDest_taken_toNat (s : State) (imm16 : BitVec 16) :
    (branchDest s true (sext16 imm16)).toNat = takenAddress s imm16 := by
  have hnpc := State.npc_toNat s
  have hoffset := branchOffset_sext16_toNat imm16
  show (s.npc + branchOffset (sext16 imm16)).toNat = _
  rw [BitVec.toNat_add, takenAddress]
  omega

/-- Branching on a condition completes in every state and moves `pc` alone: to the taken address
where the condition holds, to the next instruction where it fails. -/
theorem transfer_branchDest {s : State} {taken : Bool} {P Q : Prop} (imm16 : BitVec 16)
    (htaken : taken = true ↔ P) (hfails : Q → ¬ P) :
    ∃ t, transfer (branchDest s taken (sext16 imm16)) s = .next t ∧
      (P → WentTo s t (takenAddress s imm16)) ∧ (Q → WentTo s t (nextAddress s)) := by
  refine ⟨_, rfl, fun hP => ?_, fun hQ => ?_⟩
  · rw [htaken.2 hP, ← branchDest_taken_toNat]
    exact wentTo_setPc s _
  · rw [Bool.eq_false_iff.2 (mt htaken.1 (hfails hQ))]
    exact wentTo_npc s

/-! ### The four instructions -/

/-- Settles O39: the condition is the equality of the two registers. -/
theorem beqBranchesWhenEqual : Obligations.BeqBranchesWhenEqual :=
  fun _ _ _ imm16 => ⟨decodeWord_encodeI fun _ _ _ => rfl,
    transfer_branchDest imm16 sameBits_iff id⟩

/-- Settles O40: the condition is that the two registers differ. -/
theorem bneBranchesWhenDifferent : Obligations.BneBranchesWhenDifferent :=
  fun _ _ _ imm16 => ⟨decodeWord_encodeI fun _ _ _ => rfl,
    transfer_branchDest imm16 not_sameBits_iff not_not_intro⟩

/-- Settles O41: the `rt` field is not read, and the condition is on the signed value. -/
theorem blezBranchesWhenAtMostZero : Obligations.BlezBranchesWhenAtMostZero :=
  fun _ _ imm16 => ⟨fun p => decodeWord_encodeI (rt := p.toFin) fun _ _ _ => rfl,
    transfer_branchDest imm16 atMostZero_iff not_le.2⟩

/-- Settles O42: the `rt` field is not read, and the condition is that of `blez`, negated. -/
theorem bgtzBranchesWhenAboveZero : Obligations.BgtzBranchesWhenAboveZero :=
  fun _ _ imm16 => ⟨fun p => decodeWord_encodeI (rt := p.toFin) fun _ _ _ => rfl,
    transfer_branchDest imm16 aboveZero_iff not_lt.2⟩

end Sys2Proof.Machine

/-! PROOFS of the statements of 44_imm_arith.md: the encodings, results, completion and frames of
`addi`, `addiu`, `slti` and `sltiu`. -/

namespace Sys2Proof.Machine

/-! ### The results (R140 to R144) -/

theorem signed_eq_toInt (v : Word) : signed v = v.toInt := by
  rw [signed, BitVec.toInt_eq_toNat_cond]
  split <;> split <;> omega

/-- Adding the sign-extended immediate adds its signed value, modulo `2^32` (R140). -/
theorem toNat_add_sext16 (a : Word) (imm16 : BitVec 16) :
    ((a + sext16 imm16).toNat : Int) = (a.toNat + signed16 imm16 : Int) % 2 ^ 32 := by
  have hsext := toNat_sext16 imm16
  rw [BitVec.toNat_add]
  omega

/-- Sign extension keeps the signed value, so the signed comparison is with that of the field. -/
theorem ltSigned_sext16_iff {a : Word} {imm16 : BitVec 16} :
    ltSigned a (sext16 imm16) = true ↔ signed a < signed16 imm16 := by
  rw [ltSigned, BitVec.slt_iff_toInt_lt, ← signed_eq_toInt, ← signed_eq_toInt, signed_sext16]

/-- The unsigned comparison is with the sign extension, modulo `2^32` (D8). -/
theorem ltUnsigned_sext16_iff {a : Word} {imm16 : BitVec 16} :
    ltUnsigned a (sext16 imm16) = true ↔ (a.toNat : Int) < signed16 imm16 % 2 ^ 32 := by
  rw [ltUnsigned, BitVec.ult_iff_lt, BitVec.lt_def, ← toNat_sext16, Int.ofNat_lt]

/-! ### Writing the results back -/

/-- Writing back the sum with the immediate completes in every state and changes nothing but the
destination and `pc`. -/
theorem writeBack_add_sext16 (s : State) (rt rs : RegIdx) (imm16 : BitVec 16) :
    ∃ t v, writeBack rt (s.getReg rs + sext16 imm16) s = .next t ∧
      (v.toNat : Int) = ((s.getReg rs).toNat + signed16 imm16 : Int) % 2 ^ 32 ∧
      WroteReg s t rt v :=
  ⟨_, s.getReg rs + sext16 imm16, rfl, toNat_add_sext16 .., wroteReg_writeBack ..⟩

/-- Writing back a truth value completes in every state: with 1 where the condition holds, with 0
where it fails. -/
theorem writeBack_truthWord {b : Bool} {P : Prop} (s : State) (rt : RegIdx) (hb : b = true ↔ P) :
    ∃ t, writeBack rt (truthWord b) s = .next t ∧
      (P → WroteReg s t rt 1) ∧ (¬ P → WroteReg s t rt 0) := by
  refine ⟨_, rfl, fun hP => ?_, fun hP => ?_⟩
  · rw [hb.2 hP]
    exact wroteReg_writeBack s rt 1
  · rw [Bool.eq_false_iff.2 (mt hb.1 hP)]
    exact wroteReg_writeBack s rt 0

/-! ### The four instructions -/

/-- Settles O43: opcode 8 selects `addi`, which writes back the sum. -/
theorem addiAddsTheSignedImmediate : Obligations.AddiAddsTheSignedImmediate :=
  fun s rt rs imm16 => ⟨decodeWord_encodeI fun _ _ _ => rfl, writeBack_add_sext16 s rt rs imm16⟩

/-- Settles O44: opcode 9 selects `addiu`, which writes back the same sum. -/
theorem addiuAddsTheSignedImmediate : Obligations.AddiuAddsTheSignedImmediate :=
  fun s rt rs imm16 => ⟨decodeWord_encodeI fun _ _ _ => rfl, writeBack_add_sext16 s rt rs imm16⟩

/-- Settles O45: opcode 10 selects `slti`, whose condition is the signed comparison. -/
theorem sltiComparesSigned : Obligations.SltiComparesSigned :=
  fun s rt _ _ => ⟨decodeWord_encodeI fun _ _ _ => rfl,
    writeBack_truthWord s rt ltSigned_sext16_iff⟩

/-- Settles O46: opcode 11 selects `sltiu`, whose condition is the unsigned comparison. -/
theorem sltiuComparesUnsigned : Obligations.SltiuComparesUnsigned :=
  fun s rt _ _ => ⟨decodeWord_encodeI fun _ _ _ => rfl,
    writeBack_truthWord s rt ltUnsigned_sext16_iff⟩

end Sys2Proof.Machine

/-! PROOFS of the statements of 45_imm_logic.md: the encodings, results, completion and frames of
`andi`, `ori`, `xori` and `lui`, and the constant that `lui` and `ori` build. -/

namespace Sys2Proof.Machine

/-! ### The zero-extended and the shifted immediate (R66, R150, R154) -/

/-- The mask of `zimm` is the low sixteen bits of a word. -/
theorem lowHalfMask_eq : (0x0000FFFF#32 : Word) = (BitVec.allOnes 16).setWidth 32 := by decide

/-- The mask keeps the field and drops the copies of its sign bit. -/
theorem getLsbD_zeroExtendedImm_sext16 (imm16 : BitVec 16) {k : Nat} (hk : k < 32) :
    (zeroExtendedImm (sext16 imm16)).getLsbD k = (decide (k < 16) && imm16.getLsbD k) := by
  rw [zeroExtendedImm, lowHalfMask_eq, BitVec.getLsbD_and, getLsbD_sext16 _ _ hk,
    BitVec.getLsbD_setWidth, BitVec.getLsbD_allOnes]
  by_cases hlow : k < 16
  · simp [hlow, hk]
  · simp [hlow]

/-- The shift drops the copies of the sign bit and leaves the field over sixteen zeros. -/
theorem upperImm_sext16 (imm16 : BitVec 16) : upperImm (sext16 imm16) = imm16 ++ 0#16 := by
  refine BitVec.eq_of_getLsbD_eq fun k hk => ?_
  rw [upperImm, BitVec.getLsbD_shiftLeft, BitVec.getLsbD_append]
  by_cases hlow : k < 16
  · simp [hlow]
  · rw [getLsbD_sext16 _ _ (by omega), if_pos (by omega)]
    simp [hk, hlow]

theorem toNat_upperImm_sext16 (imm16 : BitVec 16) :
    (upperImm (sext16 imm16)).toNat = imm16.toNat * 2 ^ 16 := by
  rw [upperImm_sext16, toNat_append_eq_add, BitVec.toNat_zero, Nat.add_zero]

/-- The lower half of the shifted immediate is zero, so the zero-extended one fills it in. -/
theorem upperImm_or_zeroExtendedImm (hi lo : BitVec 16) :
    upperImm (sext16 hi) ||| zeroExtendedImm (sext16 lo) = hi ++ lo := by
  refine BitVec.eq_of_getLsbD_eq fun k hk => ?_
  rw [upperImm_sext16, BitVec.getLsbD_or, getLsbD_zeroExtendedImm_sext16 lo hk,
    BitVec.getLsbD_append, BitVec.getLsbD_append]
  by_cases hlow : k < 16
  · simp [hlow]
  · simp [hlow]

/-! ### Writing the results back -/

theorem writeBack_completes (s : State) (d : RegIdx) (v : Word) :
    ∃ t, writeBack d v s = .next t ∧ WroteReg s t d v :=
  ⟨_, rfl, wroteReg_writeBack s d v⟩

/-- Writing back a bitwise combination with the zero-extended immediate completes in every state,
changes nothing but the destination and `pc`, and combines register and field bit by bit. -/
theorem writeBack_bitwise {f : Word → Word → Word} {g : Bool → Bool → Bool}
    (hbits : ∀ a b k, (f a b).getLsbD k = g (a.getLsbD k) (b.getLsbD k))
    (s : State) (rt rs : RegIdx) (imm16 : BitVec 16) :
    ∃ t v, writeBack rt (f (s.getReg rs) (zeroExtendedImm (sext16 imm16))) s = .next t ∧
      WroteReg s t rt v ∧ ∀ k < 32,
        v.getLsbD k = g ((s.getReg rs).getLsbD k) (decide (k < 16) && imm16.getLsbD k) :=
  ⟨_, _, rfl, wroteReg_writeBack .., fun k hk => by
    rw [hbits, getLsbD_zeroExtendedImm_sext16 imm16 hk]⟩

/-! ### The four instructions -/

/-- Settles O47: opcode 12 selects `andi`, which combines bits by AND. -/
theorem andiMasksWithZeroExtension : Obligations.AndiMasksWithZeroExtension :=
  fun s rt rs imm16 => ⟨decodeWord_encodeI fun _ _ _ => rfl,
    writeBack_bitwise (fun _ _ _ => BitVec.getLsbD_and) s rt rs imm16⟩

/-- Settles O48: opcode 13 selects `ori`, which combines bits by OR. -/
theorem oriSetsWithZeroExtension : Obligations.OriSetsWithZeroExtension :=
  fun s rt rs imm16 => ⟨decodeWord_encodeI fun _ _ _ => rfl,
    writeBack_bitwise (fun _ _ _ => BitVec.getLsbD_or) s rt rs imm16⟩

/-- Settles O49: opcode 14 selects `xori`, which combines bits by exclusive OR. -/
theorem xoriFlipsWithZeroExtension : Obligations.XoriFlipsWithZeroExtension :=
  fun s rt rs imm16 => ⟨decodeWord_encodeI fun _ _ _ => rfl,
    writeBack_bitwise (fun _ _ _ => BitVec.getLsbD_xor) s rt rs imm16⟩

/-- Settles O50: opcode 15 selects `lui`, whose `rs` field is not read, and `lui` writes back the
shifted immediate. -/
theorem luiFillsTheUpperHalf : Obligations.LuiFillsTheUpperHalf :=
  fun s rt imm16 => ⟨fun p => decodeWord_encodeI (rs := p.toFin) fun _ _ _ => rfl,
    _, _, rfl, toNat_upperImm_sext16 imm16, wroteReg_writeBack s rt _⟩

/-! ### A constant in two instructions (R152, R154) -/

/-- Settles O51: `ori` reads back what `lui` wrote, and the two immediates stand side by side. -/
theorem luiThenOriBuildsAnyConstant : Obligations.LuiThenOriBuildsAnyConstant := by
  intro s rt hi lo hrt
  obtain ⟨t, hlui, hupper, hkeptByLui, -⟩ := writeBack_completes s rt (upperImm (sext16 hi))
  obtain ⟨u, hori, hvalue, hkeptByOri, -⟩ :=
    writeBack_completes t rt (t.getReg rt ||| zeroExtendedImm (sext16 lo))
  rw [if_neg hrt] at hupper hvalue
  refine ⟨t, u, hlui, hori, ?_, fun r hr => (hkeptByOri r hr).trans (hkeptByLui r hr)⟩
  rw [hvalue, hupper, upperImm_or_zeroExtendedImm, toNat_append_eq_add]

end Sys2Proof.Machine

/-! PROOFS of the statements of 46_load_store.md: the encodings, addresses, errors, completion and
frames of `lw` and `sw`. -/

namespace Sys2Proof.Machine

/-! ### The effective address as a number (R162, D5) -/

theorem effectiveAddress_sext16_toNat (s : State) (rs : RegIdx) (imm16 : BitVec 16) :
    ((effectiveAddress s rs (sext16 imm16)).toNat : Int) =
      ((s.getReg rs).toNat + signed16 imm16 : Int) % 2 ^ 32 :=
  toNat_add_sext16 (s.getReg rs) imm16

/-! ### The outcome of an access (R160, R161) -/

/-- A `lw` completes exactly when its word read succeeds, and writes back the word (R160). -/
theorem exec_lw_eq_next {rt rs : RegIdx} {imm : Word} {s t : State} :
    exec (.lw rt rs imm) s = .next t ↔
      ∃ v, s.readWord (effectiveAddress s rs imm) = .ok v ∧ t = (s.setReg rt v).setPc s.npc := by
  refine orRaise_eq_next.trans ?_
  simp only [writeBack_eq_next]

/-- A `sw` fails exactly as its access does, whatever word it stores (R161). -/
theorem exec_sw_eq_fault {rt rs : RegIdx} {imm : Word} {s : State} {e : Fault} :
    exec (.sw rt rs imm) s = .fault e ↔
      s.writeWord (effectiveAddress s rs imm) (s.getReg rt) = .error e := by
  refine orRaise_eq_fault.trans (or_iff_left ?_)
  rintro ⟨u, -, hu⟩
  cases hu

/-! ### The two instructions -/

/-- Settles O52: a `lw` fails as its word read does; a read that passes its checks gives the word of
the four bytes, which is written back. -/
theorem lwLoadsTheWord : Obligations.LwLoadsTheWord := by
  rintro s rt rs imm16 a rfl
  refine ⟨decodeWord_encodeI fun _ _ _ => rfl, effectiveAddress_sext16_toNat s rs imm16,
    fun hbound haligned => ?_, fun hpast => ?_, fun hbound hmis => ?_⟩
  · have hread := State.readWord_eq_ok.2 ⟨⟨hbound, haligned⟩, rfl⟩
    obtain ⟨b0, b1, b2, b3, hbytes⟩ := State.readWord_bytes hread
    exact ⟨_, _, b0, b1, b2, b3, exec_lw_eq_next.2 ⟨_, hread, rfl⟩, wroteReg_writeBack .., hbytes⟩
  · exact exec_lw_eq_fault.2 (State.readWord_eq_error.2 (accessFault_word_of_gt hpast))
  · exact exec_lw_eq_fault.2
      (State.readWord_eq_error.2 (accessFault_word_of_misaligned hbound hmis))

/-- Settles O53: a `sw` fails as its word write does; a write that passes its checks stores the four
bytes and leaves the rest, and moving `pc` to `npc` afterwards touches neither. -/
theorem swStoresTheWord : Obligations.SwStoresTheWord := by
  rintro s rt rs imm16 a rfl
  refine ⟨decodeWord_encodeI fun _ _ _ => rfl, effectiveAddress_sext16_toNat s rs imm16,
    fun hbound haligned => ?_, fun hpast => ?_, fun hbound hmis => ?_⟩
  · have hwrite := State.writeWord_ok (s.getReg rt) hbound haligned
    obtain ⟨-, hstored, -⟩ := wordsAreBigEndian
    obtain ⟨hkeeps, -⟩ := writesChangeOnlyTheirBytes
    obtain ⟨h0, h1, h2, h3⟩ := hstored _ _ _ _ hwrite
    obtain ⟨hregs, -, hlr, hcfg, hothers⟩ := hkeeps _ _ _ _ hwrite
    exact ⟨_, exec_sw_eq_next.2 ⟨_, hwrite, rfl⟩, hregs, State.npc_toNat s, hlr, hcfg,
      h0, h1, h2, h3, hothers⟩
  · exact exec_sw_eq_fault.2 (State.writeWord_eq_error.2 (accessFault_word_of_gt hpast))
  · exact exec_sw_eq_fault.2
      (State.writeWord_eq_error.2 (accessFault_word_of_misaligned hbound hmis))

end Sys2Proof.Machine

/-! PROOFS of the statements of 60_exceptions.md and 70_reset_and_hazards.md: the errors of a step,
the reset after a run, the launch state, and the word placed at `pc`. -/

namespace Sys2Proof.Machine

/-! ### Every error of a step (R175, R188) -/

/-- An instruction fails exactly when it is a `lw` or `sw` whose access does not pass its checks. -/
theorem exec_eq_fault_iff {i : Instr} {s : State} {e : Fault} :
    exec i s = .fault e ↔ ∃ rt rs imm, (i = .lw rt rs imm ∨ i = .sw rt rs imm) ∧
      accessFault s.cfg.memCapacity (effectiveAddress s rs imm) .word = some e := by
  refine ⟨exec_eq_fault, ?_⟩
  rintro ⟨rt, rs, imm, rfl | rfl, hfault⟩
  · exact exec_lw_eq_fault.2 (State.readWord_eq_error.2 hfault)
  · exact exec_sw_eq_fault.2 (State.writeWord_eq_error.2 hfault)

/-- Settles O20: a step fails in its fetch, in its decoding or in its instruction; the fetch and the
data access fail as the checks of a word access say. -/
theorem stepErrorsInStageOrder : Obligations.StepErrorsInStageOrder := by
  intro s e
  have hfetch := (State.readWord_eq_error (s := s) (a := s.pc) (e := e)).trans
    accessFault_word_eq_some
  rw [step_eq_fault, State.fetchWord, hfetch, or_assoc]
  refine or_congr_right (or_congr_right ⟨?_, ?_⟩)
  · rintro (⟨w, hw, hnone, he⟩ | ⟨w, i, hw, hdecode, hexec⟩)
    · exact ⟨w, hw, .inl ⟨hnone, he⟩⟩
    · obtain ⟨rt, rs, imm, hi, hfault⟩ := exec_eq_fault_iff.1 hexec
      have hword : decodeWord w = some (.lw rt rs imm) ∨ decodeWord w = some (.sw rt rs imm) := by
        simpa [hdecode] using hi
      exact ⟨w, hw, .inr ⟨rt, rs, imm, hword, accessFault_word_eq_some.1 hfault⟩⟩
  · rintro ⟨w, hw, ⟨hnone, he⟩ | ⟨rt, rs, imm, hword, hfault⟩⟩
    · exact .inl ⟨w, hw, hnone, he⟩
    · have hchecks := accessFault_word_eq_some.2 hfault
      refine .inr ?_
      rcases hword with hword | hword
      · exact ⟨w, _, hw, hword, exec_eq_fault_iff.2 ⟨rt, rs, imm, .inl rfl, hchecks⟩⟩
      · exact ⟨w, _, hw, hword, exec_eq_fault_iff.2 ⟨rt, rs, imm, .inr rfl, hchecks⟩⟩

/-! ### The reset after a run (R201) -/

/-- A run changes no build parameter (R5, R6). -/
theorem runSteps_cfg (n : Nat) (s : State) : (runSteps n s).1.cfg = s.cfg := by
  refine runSteps_invariant (P := fun t => t.cfg = s.cfg) (fun t u hstep ht => ?_) n s rfl
  obtain ⟨i, hform⟩ := step_nextForm hstep
  exact hform.cfg_eq.trans ht

/-- Settles O3: a reset looks at nothing but the build parameters, and a run keeps them. -/
theorem resetForgetsTheRun : Obligations.ResetForgetsTheRun :=
  fun n s => congrArg State.resetOf (runSteps_cfg n s)

/-! ### Loading an image (R204, R205) -/

/-- The array with the bytes of an image written over it, the first entry first. -/
def Memory.setImage (m : Memory) (image : List (Word × Byte)) : Memory :=
  image.foldl (fun m p => m.set p.1.toNat p.2) m

/-- A byte of the array under an image is that of the image's last entry for its address, if there
is one. -/
theorem Memory.get_setImage (m : Memory) (image : List (Word × Byte)) (a : Word) :
    (m.setImage image).get a.toNat = (image.reverse.lookup a).getD (m.get a.toNat) := by
  induction image using List.reverseRecOn with
  | nil => rfl
  | append_singleton image p ih =>
    obtain ⟨k, b⟩ := p
    have hlast : m.setImage (image ++ [(k, b)]) = (m.setImage image).set k.toNat b := by
      simp [Memory.setImage]
    rw [hlast, List.reverse_concat, List.lookup_cons]
    by_cases hk : a = k
    · subst hk
      simp [Memory.get_set_self]
    · have hne : a.toNat ≠ k.toNat := mt BitVec.eq_of_toNat_eq hk
      simp [Memory.get_set_ne _ b hne, beq_false_of_ne hk, ih]

/-- An image inside the memory loads, and replaces the memory array alone. -/
theorem loadImage_eq_ok {image : List (Word × Byte)} {s : State}
    (h : ∀ p ∈ image, p.1.toNat < s.cfg.memCapacity) :
    loadImage s image = .ok (s.setMem (s.mem.setImage image)) := by
  induction image generalizing s with
  | nil => rfl
  | cons p image ih =>
    obtain ⟨hp, himage⟩ := List.forall_mem_cons.1 h
    rw [loadImage_cons_of_lt p.2 image hp]
    exact ih himage

/-- An image with an entry outside the memory is refused (U20). -/
theorem loadImage_eq_error {image : List (Word × Byte)} {s : State}
    (h : ∃ p ∈ image, s.cfg.memCapacity ≤ p.1.toNat) :
    ∃ e, loadImage s image = .error e ∧ e.name = .outOfBounds := by
  induction image generalizing s with
  | nil => simp at h
  | cons p image ih =>
    by_cases hp : p.1.toNat < s.cfg.memCapacity
    · have himage := (List.exists_mem_cons_iff ..).1 h |>.resolve_left hp.not_ge
      rw [loadImage_cons_of_lt p.2 image hp]
      exact ih himage
    · have hwrite := State.writeByte_eq_error (s := s) (a := p.1) (v := p.2) |>.2 ⟨by omega, rfl⟩
      exact ⟨_, by rw [loadImage, hwrite], rfl⟩

/-- What every byte write keeps, every load keeps. -/
theorem loadImage_invariant {P : State → Prop}
    (hwrite : ∀ s t a b, State.writeByte s a b = .ok t → P s → P t) {image : List (Word × Byte)}
    {s t : State} (h : loadImage s image = .ok t) (hs : P s) : P t := by
  induction image generalizing s with
  | nil => cases h; exact hs
  | cons p image ih =>
    rw [loadImage] at h
    split at h
    · cases h
    · next u hu => exact ih h (hwrite s u p.1 p.2 hu hs)

/-! ### The launch state (R206) -/

/-- Settles O4: the image is written over an empty array, and nothing but the array is changed. -/
theorem launchIsTheImageOverReset : Obligations.LaunchIsTheImageOverReset := by
  intro c image
  refine ⟨fun hinside => ?_, fun houtside => loadImage_eq_error houtside⟩
  refine ⟨_, loadImage_eq_ok hinside, State.getReg_resetOf c, rfl, rfl, rfl, fun a ha => ?_⟩
  exact State.readByte_eq_ok.2 ⟨ha, (Memory.get_setImage [] image a).symm⟩

/-- A byte write keeps the canonical form, and leaves the program counter. -/
theorem State.writeByte_inv {s t : State} {a : Word} {v : Byte} (h : s.writeByte a v = .ok t)
    (hs : s.Inv) : t.Inv := by
  obtain ⟨hwf, hpc⟩ := hs
  have hwf' := State.writeByte_wf hwf h
  obtain ⟨-, rfl⟩ := State.writeByte_eq_ok.1 h
  exact ⟨hwf', hpc⟩

/-- Settles O25: the reset state meets the invariant, and every byte of the image keeps it. -/
theorem launchMeetsTheInvariant : Obligations.LaunchMeetsTheInvariant :=
  fun _ _ _ hc hpc h =>
    loadImage_invariant (fun _ _ _ _ => State.writeByte_inv) h (State.resetOf_inv hc hpc)

/-! ### The word placed at `pc` -/

/-- A word has 32 bits, all of which the table word takes. -/
theorem tableWord_toNat (w : Word) : tableWord 32 w.toNat = w := by
  rw [tableWord, Nat.mod_eq_of_lt w.isLt, BitVec.ofNat_toNat, BitVec.setWidth_eq]

/-- Placing a word where one can be fetched is writing it there. -/
theorem State.withFetchWord_eq {s t : State} {w : Word} (h : s.writeWord s.pc w = .ok t) :
    s.withFetchWord 32 w.toNat = t := by
  rw [State.withFetchWord, tableWord_toNat, State.placeWord, h]

/-- Settles O32: the word is written at `pc`, so it is read there by the fetch, and the write leaves
everything but its four bytes. -/
theorem placedWordIsExecutedNext : Obligations.PlacedWordIsExecutedNext := by
  intro s w i haligned hbound hdecode
  have hwrite := State.writeWord_ok w hbound haligned
  obtain ⟨hkeeps, -⟩ := writesChangeOnlyTheirBytes
  obtain ⟨hregs, hpc, hlr, hcfg, hothers⟩ := hkeeps _ _ _ _ hwrite
  have hfetch := State.readWord_of_writeWord hwrite
  rw [State.withFetchWord_eq hwrite]
  exact ⟨step_eq_exec hfetch hdecode, hfetch, hregs, hpc, hlr, hcfg, hothers⟩

end Sys2Proof.Machine
